-- ==== Sys2Proof/Word.lean ====
section
/-! DEFINITION. The machine's words: a 256-bit register value, a 32-bit word of the host port, a byte. -/

namespace Sys2Proof

/-- The content of one general register: 256 bits, an unsigned integer in [0, 2^256)
(10_state.md R20). -/
abbrev Word := BitVec 256

/-- The width of every host transaction and of a command word: 32 bits (20_memory.md R42,
30_encoding.md R60). -/
abbrev BusWord := BitVec 32

/-- One byte of a 32-byte buffer (42_bytes_clamp.md R100). -/
abbrev Byte := BitVec 8

end Sys2Proof
end

