-- ==== Sys2Proof/Syntax.lean ====
section
/-! DEFINITION. The commands of the core (30_encoding.md R64) and the pseudo-instructions (R70). -/

namespace Sys2Proof

/-- A w operand: the index i of `w[i]`; every value 0 to 31 is legal (30_encoding.md R62). -/
abbrev WReg := Fin 32

/-- A p operand: the index j of the point view `p[j]` = `w[4j..4j+3]` (30_encoding.md R62); its
field in the command word is 4j. -/
abbrev PView := Fin 8

/-- One constructor per row of the opcode map (30_encoding.md R64), operands in the order of R69:
destination first. -/
inductive Instr where
  /-- `FRED wd, wa` (41_field.md R82). -/
  | fred (rd ra : WReg)
  /-- `FADD wd, wa, wb` (41_field.md R83). -/
  | fadd (rd ra rb : WReg)
  /-- `FSUB wd, wa, wb` (41_field.md R84). -/
  | fsub (rd ra rb : WReg)
  /-- `FMUL wd, wa, wb` (41_field.md R85). -/
  | fmul (rd ra rb : WReg)
  /-- `FPSQ wd, wa, wb, k` (41_field.md R86); k is the squaring count `imm8` (30_encoding.md R63). -/
  | fpsq (rd ra rb : WReg) (k : Nat)
  /-- `FINV wd, wa` (41_field.md R87). -/
  | finv (rd ra : WReg)
  /-- `FSQX wd, wa` (41_field.md R88). -/
  | fsqx (rd ra : WReg)
  /-- `FSQRT wd, wa, wb` (41_field.md R90): u = wa, v = wb. -/
  | fsqrt (rd ra rb : WReg)
  /-- `CLAMP wd, wa` (42_bytes_clamp.md R102). -/
  | clamp (rd ra : WReg)
  /-- `PADD pd, pa, pb` (43_edwards_group.md R118). -/
  | padd (rd ra rb : PView)
  /-- `PDBL pd, pa` (43_edwards_group.md R120). -/
  | pdbl (rd ra : PView)
  /-- `SMULB pd, wa` (44_fixed_base.md R135): wa is the scalar. -/
  | smulb (rd : PView) (ra : WReg)
  /-- `PCMP wd, pa` (45_point_codec.md R146). -/
  | pcmp (rd : WReg) (ra : PView)
  /-- `PDEC pd, wa` (45_point_codec.md R147). -/
  | pdec (rd : PView) (ra : WReg)
  /-- `XLAD wd, wa, wb` (46_x25519_ladder.md R164): scalar = wa, u = wb. -/
  | xlad (rd ra rb : WReg)
  deriving DecidableEq, Repr

/-- The pseudo-instructions of the assembler (30_encoding.md R70). -/
inductive Pseudo where
  /-- `FPSQ wd, wa, k`: the factor defaults to x. -/
  | fpsq3 (rd ra : WReg) (k : Nat)
  /-- `FSQR wd, wa`: squaring. -/
  | fsqr (rd ra : WReg)
  /-- `ENCB wd, pt, wa`: the source's `encodePoint`; `pt` is a scratch view, overwritten. -/
  | encb (rd : WReg) (pt : PView) (ra : WReg)
  deriving DecidableEq, Repr

end Sys2Proof
end

