-- ==== Sys2Proof/WellFormed.lean ====
section
/-! DEFINITION. The one check the operand types leave: the range of the squaring count. -/

namespace Sys2Proof

/-- Register and view operands are in range by their types. The squaring count of `FPSQ` is a
number that must fit `imm8`: "0 to 255" (30_encoding.md R63, 41_field.md R86, decision D18). -/
def Instr.wellFormed : Instr → Bool
  | .fpsq _ _ _ k => decide (k ≤ 255)
  | .fred _ _ => true
  | .fadd _ _ _ => true
  | .fsub _ _ _ => true
  | .fmul _ _ _ => true
  | .finv _ _ => true
  | .fsqx _ _ => true
  | .fsqrt _ _ _ => true
  | .clamp _ _ => true
  | .padd _ _ _ => true
  | .pdbl _ _ => true
  | .smulb _ _ => true
  | .pcmp _ _ => true
  | .pdec _ _ => true
  | .xlad _ _ _ => true

/-- An instruction the encoding of 30_encoding.md can carry. -/
abbrev WellFormed (i : Instr) : Prop := i.wellFormed = true

end Sys2Proof
end

