-- ==== Sys2Proof/Decode.lean ====
section
/-! DEFINITION. Command words: the opcode map, the decoder, the encoder, the assembler's names. -/

namespace Sys2Proof

/-- `c[lo+width-1:lo]`, an unsigned integer (00_scope.md R11). -/
def bitsOf (c : BusWord) (lo width : Nat) : Nat := c.toNat / 2 ^ lo % 2 ^ width

/-- `op` = c[31:24] (30_encoding.md R61). -/
def opField (c : BusWord) : Nat := bitsOf c 24 8
/-- `rd` = c[23:19]. -/
def rdField (c : BusWord) : Nat := bitsOf c 19 5
/-- `ra` = c[18:14]. -/
def raField (c : BusWord) : Nat := bitsOf c 14 5
/-- `rb` = c[13:9]. -/
def rbField (c : BusWord) : Nat := bitsOf c 9 5
/-- `imm8` = c[7:0]. -/
def immField (c : BusWord) : Nat := bitsOf c 0 8

/-- A register field read as a w operand: the value i names `w[i]` (30_encoding.md R62). -/
def wOperand (f : Nat) : WReg := Fin.ofNat 32 f
/-- A register field read as a p operand: the value 4j names `p[j]` (30_encoding.md R62). -/
def pOperand (f : Nat) : PView := Fin.ofNat 8 (f / 4)

/-- One row of the opcode map (30_encoding.md R64): a word c is the row's command exactly when
`c and mask = bits`; `build` reads its operands. -/
structure OpcodeRow where
  bits  : BusWord
  mask  : BusWord
  build : BusWord → Instr

/-- The fifteen rows of 30_encoding.md R64, in the table's order. -/
def opcodeMap : List OpcodeRow :=
  [ ⟨0x10000000, 0xFF003FFF, fun c => .fred (wOperand (rdField c)) (wOperand (raField c))⟩,
    ⟨0x11000000, 0xFF0001FF, fun c =>
      .fadd (wOperand (rdField c)) (wOperand (raField c)) (wOperand (rbField c))⟩,
    ⟨0x12000000, 0xFF0001FF, fun c =>
      .fsub (wOperand (rdField c)) (wOperand (raField c)) (wOperand (rbField c))⟩,
    ⟨0x13000000, 0xFF0001FF, fun c =>
      .fmul (wOperand (rdField c)) (wOperand (raField c)) (wOperand (rbField c))⟩,
    ⟨0x14000000, 0xFF000100, fun c =>
      .fpsq (wOperand (rdField c)) (wOperand (raField c)) (wOperand (rbField c)) (immField c)⟩,
    ⟨0x15000000, 0xFF003FFF, fun c => .finv (wOperand (rdField c)) (wOperand (raField c))⟩,
    ⟨0x16000000, 0xFF003FFF, fun c => .fsqx (wOperand (rdField c)) (wOperand (raField c))⟩,
    ⟨0x17000000, 0xFF0001FF, fun c =>
      .fsqrt (wOperand (rdField c)) (wOperand (raField c)) (wOperand (rbField c))⟩ ] ++
  [ ⟨0x20000000, 0xFF003FFF, fun c => .clamp (wOperand (rdField c)) (wOperand (raField c))⟩,
    ⟨0x30000000, 0xFF18C7FF, fun c =>
      .padd (pOperand (rdField c)) (pOperand (raField c)) (pOperand (rbField c))⟩,
    ⟨0x31000000, 0xFF18FFFF, fun c => .pdbl (pOperand (rdField c)) (pOperand (raField c))⟩,
    ⟨0x40000000, 0xFF183FFF, fun c => .smulb (pOperand (rdField c)) (wOperand (raField c))⟩,
    ⟨0x50000000, 0xFF00FFFF, fun c => .pcmp (wOperand (rdField c)) (pOperand (raField c))⟩,
    ⟨0x51000000, 0xFF183FFF, fun c => .pdec (pOperand (rdField c)) (wOperand (raField c))⟩,
    ⟨0x60000000, 0xFF0001FF, fun c =>
      .xlad (wOperand (rdField c)) (wOperand (raField c)) (wOperand (rbField c))⟩ ]

/-- Why a word is illegal: the causes 30_encoding.md R66 lists. The effect of an illegal word is the
same for all of them. -/
inductive IllegalWord where
  /-- "any `op` value other than the fifteen listed" -/
  | unlistedOpcode
  /-- "bit 8 set" -/
  | reservedBit
  /-- "a non-zero unused register field" -/
  | unusedField
  /-- "a non-zero `imm8` outside `FPSQ`" -/
  | strayImmediate
  /-- "a p operand field that is not a multiple of 4" -/
  | pointOperand
  deriving DecidableEq, Repr

/-- Whether `c` is the command of `row` (30_encoding.md R64). -/
def OpcodeRow.matches (row : OpcodeRow) (c : BusWord) : Bool := c &&& row.mask == row.bits

/-- Whether a register field that `row` leaves unused (its five bits are all in the mask) is not
zero in `c`. -/
def strayField (row : OpcodeRow) (c : BusWord) (lo : Nat) : Bool :=
  bitsOf row.mask lo 5 == 31 && bitsOf c lo 5 != 0

/-- The cause by which a word that matches no row is illegal (30_encoding.md R66); of several, the
first of R66's list that applies, `imm8` before the register fields. -/
def illegalCause (c : BusWord) : IllegalWord :=
  match opcodeMap.find? (fun row => bitsOf row.bits 24 8 == opField c) with
  | none => .unlistedOpcode
  | some row =>
    if c.getLsbD 8 then .reservedBit
    else if bitsOf row.mask 0 8 == 255 && immField c != 0 then .strayImmediate
    else if strayField row c 19 || strayField row c 14 || strayField row c 9 then .unusedField
    else .pointOperand

/-- Decoding (30_encoding.md R65): the row with `c and mask = match`, if there is one; otherwise the
word is illegal, with its cause. Decoding reads no state. -/
def decode (c : BusWord) : Except IllegalWord Instr :=
  match opcodeMap.find? (fun row => row.matches c) with
  | some row => .ok (row.build c)
  | none => .error (illegalCause c)

/-- The word of a command: `op·2^24 + rd·2^19 + ra·2^14 + rb·2^9 + imm8` (30_encoding.md R61). -/
def commandWord (op rd ra rb imm8 : Nat) : BusWord :=
  BitVec.ofNat 32 (op * 2 ^ 24 + rd * 2 ^ 19 + ra * 2 ^ 14 + rb * 2 ^ 9 + imm8)

/-- The command word of an instruction: the opcodes of 30_encoding.md R64, a p operand `p[j]` as the
field value 4j (R62), an unused field 0. -/
def encode : Instr → BusWord
  | .fred rd ra => commandWord 0x10 rd ra 0 0
  | .fadd rd ra rb => commandWord 0x11 rd ra rb 0
  | .fsub rd ra rb => commandWord 0x12 rd ra rb 0
  | .fmul rd ra rb => commandWord 0x13 rd ra rb 0
  | .fpsq rd ra rb k => commandWord 0x14 rd ra rb k
  | .finv rd ra => commandWord 0x15 rd ra 0 0
  | .fsqx rd ra => commandWord 0x16 rd ra 0 0
  | .fsqrt rd ra rb => commandWord 0x17 rd ra rb 0
  | .clamp rd ra => commandWord 0x20 rd ra 0 0
  | .padd rd ra rb => commandWord 0x30 (4 * rd) (4 * ra) (4 * rb) 0
  | .pdbl rd ra => commandWord 0x31 (4 * rd) (4 * ra) 0 0
  | .smulb rd ra => commandWord 0x40 (4 * rd) ra 0 0
  | .pcmp rd ra => commandWord 0x50 rd (4 * ra) 0 0
  | .pdec rd ra => commandWord 0x51 (4 * rd) ra 0 0
  | .xlad rd ra rb => commandWord 0x60 rd ra rb 0

/-- The instruction the decoder reads from the table's numbering of a word's bits. A command is one
32-bit word carried by value (30_encoding.md R60, 20_memory.md R52), so its bits are numbered as the
table numbers them; bits at and above `nbits` are 0. -/
def decodeTableWord (nbits w : Nat) : Option Instr :=
  (decode (BitVec.ofNat 32 (w % 2 ^ nbits))).toOption

/-- The expansion of a pseudo-instruction (30_encoding.md R70). -/
def expandPseudo : Pseudo → List Instr
  | .fpsq3 rd ra k => [.fpsq rd ra ra k]
  | .fsqr rd ra => [.fmul rd ra ra]
  | .encb rd pt ra => [.smulb pt ra, .pcmp rd pt]

/-- A w operand as the assembler writes it (30_encoding.md R69). -/
def wName (i : WReg) : String := "w" ++ toString i.val
/-- A p operand as the assembler writes it (30_encoding.md R69). -/
def pName (j : PView) : String := "p" ++ toString j.val

/-- A command in the assembler's syntax: the mnemonic, then the operands separated by commas,
destination first, the immediate of `FPSQ` last (30_encoding.md R69). -/
def assembly : Instr → String
  | .fred rd ra => "FRED " ++ wName rd ++ ", " ++ wName ra
  | .fadd rd ra rb => "FADD " ++ wName rd ++ ", " ++ wName ra ++ ", " ++ wName rb
  | .fsub rd ra rb => "FSUB " ++ wName rd ++ ", " ++ wName ra ++ ", " ++ wName rb
  | .fmul rd ra rb => "FMUL " ++ wName rd ++ ", " ++ wName ra ++ ", " ++ wName rb
  | .fpsq rd ra rb k =>
    "FPSQ " ++ wName rd ++ ", " ++ wName ra ++ ", " ++ wName rb ++ ", " ++ toString k
  | .finv rd ra => "FINV " ++ wName rd ++ ", " ++ wName ra
  | .fsqx rd ra => "FSQX " ++ wName rd ++ ", " ++ wName ra
  | .fsqrt rd ra rb => "FSQRT " ++ wName rd ++ ", " ++ wName ra ++ ", " ++ wName rb
  | .clamp rd ra => "CLAMP " ++ wName rd ++ ", " ++ wName ra
  | .padd rd ra rb => "PADD " ++ pName rd ++ ", " ++ pName ra ++ ", " ++ pName rb
  | .pdbl rd ra => "PDBL " ++ pName rd ++ ", " ++ pName ra
  | .smulb rd ra => "SMULB " ++ pName rd ++ ", " ++ wName ra
  | .pcmp rd ra => "PCMP " ++ wName rd ++ ", " ++ pName ra
  | .pdec rd ra => "PDEC " ++ pName rd ++ ", " ++ wName ra
  | .xlad rd ra rb => "XLAD " ++ wName rd ++ ", " ++ wName ra ++ ", " ++ wName rb

end Sys2Proof
end

