-- ==== Sys2Proof/Config.lean ====
section
/-! DEFINITION. The one free value of the machine: what the registers hold after an external reset. -/

namespace Sys2Proof

/-- FREE VALUE (log 2). `Config.resetContents n before i` is the content of register `i` after the
`n`-th external reset of a machine whose registers held `before`: 10_state.md R36 and
70_reset_and_hazards.md R196 leave it unspecified, "any 256-bit value per register, stable until
written", possibly different from one reset to the next. It is applied to the old contents because
a reset may leave them where they were: "No command and no reset clears a register" (R206). No body:
no proof can see what it is. -/
opaque Config.resetContents : Nat → Vector Word 32 → Fin 32 → Word

end Sys2Proof
end

