-- ==== Sys2Proof/Machine/State.lean ====
section
/-! DEFINITION. The machine's state, its reset, what enters at the host port, and why a step can stop. -/

namespace Sys2Proof.Machine

/-- The values of `STATUS.CODE` that occur (10_state.md R28, 60_exceptions.md R176): codes 4 to 15
never do, and U8 allows the four-value type. -/
inductive ResultCode where
  /-- 0 `OK`: the command reached its end. -/
  | ok
  /-- 1 `InvalidPoint`: `PDEC` only. -/
  | invalidPoint
  /-- 2 `IllegalCommand`: any word that matches no row of the opcode map. -/
  | illegalCommand
  /-- 3 `NoSquareRoot`: `FSQRT` only. -/
  | noSquareRoot
  deriving DecidableEq, Repr

/-- The register `STATUS` (10_state.md R27). Bits 31:5 are never written and read as 0, so they are
not stored: `statusWord` reads them. -/
structure Status where
  /-- bits 3:0, the result code of the most recent command word -/
  code : ResultCode
  /-- bit 4, written by `XLAD` only (10_state.md R29) -/
  zf   : Bool
  deriving DecidableEq, Repr

/-- What can arrive at the core from outside: a host transaction (20_memory.md R42) or a reset
(70_reset_and_hazards.md R195). An offset is a byte offset from `HOST_BASE` (00_scope.md R13); `size`
is the access's width in bytes. Offsets, sizes and kinds of access that R43 excludes can be written
down here and are refused by the step. -/
inductive HostEvent where
  /-- `MemRead(offset, size)` -/
  | memRead (offset size : Nat)
  /-- `MemWrite(offset, size, value)`; of an access that is not 4 bytes wide the value is not looked
  at, since the access is refused (log 3). -/
  | memWrite (offset size : Nat) (value : BusWord)
  /-- the one external reset -/
  | reset
  deriving DecidableEq, Repr

/-- The machine (10_state.md R20 to R36) and, as the model's own fields, the host's side of the port. -/
structure State where
  /-- the general registers `w[0]` to `w[31]` (R20); `p[j]` is an alias of four of them (R21) -/
  w       : Vector Word 32
  /-- the status register (R27) -/
  status  : Status
  /-- MODEL'S OWN: the events the port has not accepted yet, oldest first. All transactions form one
  total order (20_memory.md R49); the order is this list (log 5). -/
  port    : List HostEvent
  /-- MODEL'S OWN: the words returned to the host by its reads, oldest first (log 5). -/
  replies : List BusWord
  /-- MODEL'S OWN: how many external resets have happened, the counter the free register contents
  are applied to (log 2). -/
  resets  : Nat
  deriving DecidableEq, Repr

/-- Why the machine stops with a fault: never. No command traps, no access faults, and nothing stops
the core (60_exceptions.md R175, R176, R178), so there is no constructor. -/
inductive Fault where
  deriving DecidableEq, Repr

/-- Why the model does not take a step. A host access outside the four transactions of 20_memory.md
R42 "has no meaning in this spec ... the model refuses them" (R43, U7). The five reasons below are
raised by the step when such an access is the oldest event at the port; each is SAFE, since the
model stops there and proves nothing of what the bus would return (log 3). -/
inductive Refusal where
  /-- An instruction without a meaning; raised by no arm of `exec` in this model. -/
  | notModelled (mnemonic : String)
  /-- A read of `CMD`, which is write only (raised by `readTransaction`; safe). -/
  | readOfCommand
  /-- A write of `STATUS`, which is read only (raised by `writeTransaction`; safe). -/
  | writeOfStatus
  /-- An offset that holds nothing: 0x008 to 0x3FF, or beyond 0x7FF (raised by `windowCell`; safe). -/
  | unmappedOffset (offset : Nat)
  /-- An access that is not exactly 4 bytes wide (raised by `windowCell`; safe). -/
  | accessWidth (size : Nat)
  /-- An offset that is not a multiple of 4 (raised by `windowCell`; safe). -/
  | misalignedOffset (offset : Nat)
  deriving DecidableEq, Repr

/-- `STATUS` after reset: `CODE` = 0, `ZF` = 0 (10_state.md R36, 70_reset_and_hazards.md R196). -/
def Status.reset : Status := { code := .ok, zf := false }

/-- The machine after a reset that left `contents` in the registers: R36 draws "any 256-bit value per
register". No event has arrived and nothing has been read. -/
def State.afterReset (contents : Vector Word 32) : State :=
  { w := contents, status := .reset, port := [], replies := [], resets := 0 }

/-- The machine right after reset. The registers' contents are unspecified (10_state.md R36); the
model names 0 for each (DESIGN CHOICE, log 1). Statements about reset are made of `afterReset` for
every draw. -/
def State.reset : State := State.afterReset (Vector.replicate 32 0)

end Sys2Proof.Machine
end

