-- ==== Sys2Proof/Machine/Ops.lean ====
section
/-! DEFINITION. The shared operations: registers, result codes, the host window, the external reset. -/

namespace Sys2Proof.Machine

/-! ## Registers (00_scope.md R12) -/

/-- `w[i]`. No register is hardwired (10_state.md R23), and reading one is always defined. -/
def State.readW (s : State) (i : WReg) : Word := s.w[i.val]

/-- `w[i] <- v`: the one place a register is written. -/
def State.writeW (s : State) (i : WReg) (v : Word) : State := { s with w := s.w.set i.val v }

/-! ## The end of a command (00_scope.md R14) -/

/-- `STATUS.CODE <- code`; `ZF` keeps its value (10_state.md R29). -/
def State.setCode (s : State) (code : ResultCode) : State :=
  { s with status := { s.status with code := code } }

/-- "A command that reaches its end without `raise` sets `STATUS.CODE <- 0`" (00_scope.md R14). -/
def State.complete (s : State) : State := s.setCode .ok

/-- `raise <Name>`: "stop the command, write nothing but `STATUS.CODE`", and complete normally
(00_scope.md R14). It is what this core has in place of taking an exception: no control transfer, no
saved state, no handler (60_exceptions.md R178, R182). -/
def State.raise (s : State) (code : ResultCode) : State := s.setCode code

/-! ## Byte images (42_bytes_clamp.md R100, 20_memory.md R44) -/

/-- `v[8k+7:8k]`: byte k of the buffer a register holds, little-endian. -/
def byteOf (v : Word) (k : Nat) : Byte := v.extractLsb' (8 * k) 8

/-- `IntToBytes(v)`: the 32-byte buffer of a 256-bit value, byte 0 first. -/
def intToBytes (v : Word) : List Byte := (List.range 32).map (byteOf v)

/-- `BytesToInt(b) = b[0] + b[1]·2^8 + ... `, byte 0 first. -/
def bytesToInt : List Byte → Nat
  | [] => 0
  | b :: rest => b.toNat + 2 ^ 8 * bytesToInt rest

/-! ## Words of a register (20_memory.md R41, R42) -/

/-- `v[32k+31:32k]`: word k of a register. -/
def busWordOf (v : Word) (k : Fin 8) : BusWord := v.extractLsb' (32 * k.val) 32

/-- `v` with its bits 32k+31..32k replaced by `b`; "the other 224 bits ... keep their value". -/
def setBusWord (v : Word) (k : Fin 8) (b : BusWord) : Word :=
  (v &&& ~~~(BitVec.ofNat 256 0xFFFFFFFF <<< (32 * k.val))) ||| (b.setWidth 256 <<< (32 * k.val))

/-! ## The host window (20_memory.md R41) -/

/-- What a well-formed access reaches. -/
inductive WindowCell where
  /-- offset 0x000 -/
  | command
  /-- offset 0x004 -/
  | status
  /-- offset 0x400 + 32·i + 4·k: word k of `w[i]` -/
  | regWord (i : WReg) (k : Fin 8)
  deriving DecidableEq, Repr

/-- The cell of an access of `size` bytes at `offset`, or why the access is none of the four
transactions (20_memory.md R41, R43, R46): of several reasons the width first, then the alignment. -/
def windowCell (offset size : Nat) : Except Refusal WindowCell :=
  if size ≠ 4 then .error (.accessWidth size)
  else if offset % 4 ≠ 0 then .error (.misalignedOffset offset)
  else if offset = 0x000 then .ok .command
  else if offset = 0x004 then .ok .status
  else if 0x400 ≤ offset ∧ offset < 0x800 then
    .ok (.regWord (Fin.ofNat 32 ((offset - 0x400) / 32)) (Fin.ofNat 8 ((offset - 0x400) / 4)))
  else .error (.unmappedOffset offset)

/-- The offset of word k of `w[i]` (20_memory.md R41). -/
def regOffset (i : WReg) (k : Fin 8) : Nat := 0x400 + 32 * i.val + 4 * k.val

/-- The register bytes of the window: byte k of the buffer of `w[i]` is at offset 0x400 + 32·i + k
(20_memory.md R45); no other offset holds a byte of a register. -/
def windowByte (s : State) (offset : Nat) : Option Byte :=
  if 0x400 ≤ offset ∧ offset < 0x800 then
    some (byteOf (s.readW (Fin.ofNat 32 ((offset - 0x400) / 32))) ((offset - 0x400) % 32))
  else none

/-- A read returns its word to the host and has no other effect (20_memory.md R42, R48). -/
def State.reply (s : State) (v : BusWord) : State := { s with replies := s.replies ++ [v] }

/-! ## The external reset (70_reset_and_hazards.md R195, R196) -/

/-- `STATUS` becomes 0 and every register holds an unspecified value, a fresh draw at each reset that
may depend on what the registers held: a reset is no way to scrub secrets (R197, R206, log 2). The
host's side of the port is not the core's and stays. -/
def State.externalReset (s : State) : State :=
  { s with
    w := Vector.ofFn (Config.resetContents s.resets s.w)
    status := .reset
    resets := s.resets + 1 }

end Sys2Proof.Machine
end

