-- ==== Sys2Proof/Machine/Operands.lean ====
section
/-! DEFINITION. The two operand forms: a register as an integer, a point view as four. -/

namespace Sys2Proof.Machine

/-- An extended point (X, Y, Z, T) as the mathematical integers the formulas compute with
(43_edwards_group.md R110, 00_scope.md R10). -/
structure Point where
  X : Nat
  Y : Nat
  Z : Nat
  T : Nat
  deriving DecidableEq, Repr

/-- A w operand as source: the register as a 256-bit unsigned integer (41_field.md R80). -/
def State.intOf (s : State) (i : WReg) : Nat := (s.readW i).toNat

/-- A w operand as destination of an integer result 0 <= v < 2^256 (00_scope.md R12). -/
def State.putInt (s : State) (i : WReg) (v : Nat) : State := s.writeW i (BitVec.ofNat 256 v)

/-- The register that holds coordinate `k` (0 X, 1 Y, 2 Z, 3 T) of the view `p[j]`: `w[4j+k]`
(10_state.md R21). -/
def viewReg (j : PView) (k : Fin 4) : WReg := ⟨4 * j.val + k.val, by omega⟩

/-- A p operand as source: `(w[4j], w[4j+1], w[4j+2], w[4j+3])` read as (X, Y, Z, T). -/
def State.readP (s : State) (j : PView) : Point :=
  { X := s.intOf (viewReg j 0), Y := s.intOf (viewReg j 1),
    Z := s.intOf (viewReg j 2), T := s.intOf (viewReg j 3) }

/-- A p operand as destination: `p[j] <- (X, Y, Z, T)` writes the four registers. -/
def State.writeP (s : State) (j : PView) (q : Point) : State :=
  (((s.putInt (viewReg j 0) q.X).putInt (viewReg j 1) q.Y).putInt (viewReg j 2) q.Z).putInt
    (viewReg j 3) q.T

end Sys2Proof.Machine
end

