-- ==== Sys2Proof/Machine/Clamp.lean ====
section
/-! DEFINITION. Scalar clamping (42_bytes_clamp.md R102). -/

namespace Sys2Proof.Machine

/-- `Clamp(v) = (v and (2^255 - 8)) or 2^254` (42_bytes_clamp.md R102). -/
def clamp (v : Word) : Word := (v &&& BitVec.ofNat 256 (2 ^ 255 - 8)) ||| BitVec.ofNat 256 (2 ^ 254)

/-- `CLAMP wd, wa` (42_bytes_clamp.md R102). -/
def execClamp (rd ra : WReg) (s : State) : Host.Outcome State Fault Refusal :=
  .next ((s.writeW rd (clamp (s.readW ra))).complete)

end Sys2Proof.Machine
end

