-- ==== Sys2Proof/Machine/Field.lean ====
section
/-! DEFINITION. Arithmetic in the field of P = 2^255 - 19 (00_scope.md R15, 41_field.md). -/

namespace Sys2Proof.Machine

/-- The field modulus (00_scope.md R9). -/
def P : Nat := 2 ^ 255 - 19

/-- The square root of -1 used by `SqrtRatio` (43_edwards_group.md R115): 2^((P-1)/4) mod P. -/
def SQRTM1 : Nat := 0x2b8324804fc1df0b2b4d00993dfbd7a72f431806ad2fe478c4ee1b274a0ea0b0

/-- `fred(a) = a mod P` (00_scope.md R15). -/
def fred (a : Nat) : Nat := a % P

/-- `fadd(a, b) = (a + b) mod P` (00_scope.md R15). -/
def fadd (a b : Nat) : Nat := (a + b) % P

/-- `fsub(a, b) = (a - b) mod P`, in [0, P) also for a < b (00_scope.md R10, R15): b is replaced by
its additive inverse P - b mod P. `fsub_eq_int` says that this is the integer remainder. -/
def fsub (a b : Nat) : Nat := (a + (P - b % P)) % P

/-- `fmul(a, b) = (a * b) mod P` (00_scope.md R15). -/
def fmul (a b : Nat) : Nat := (a * b) % P

/-- `fsq(a) = (a * a) mod P` (00_scope.md R15). -/
def fsq (a : Nat) : Nat := (a * a) % P

/-- k squarings (41_field.md R86). -/
def fsqTimes : Nat → Nat → Nat
  | 0, r => r
  | k + 1, r => fsqTimes k (fsq r)

/-- `fpsq(x, k, f) = ((x mod P)^(2^k) * f) mod P`, by k squarings of `x mod P` (41_field.md R86). -/
def fpsq (x k f : Nat) : Nat := fmul (fsqTimes k (x % P)) f

/-- `x^e mod P` for an exponent of at most n bits, by squaring and multiplying from the exponent's
top bit down. `fpow_eq` says that this is the power. -/
def fpow (x e : Nat) : Nat → Nat
  | 0 => 1
  | n + 1 =>
    let r := fsq (fpow x (e / 2) n)
    if e % 2 = 1 then fmul r x else r

/-- The exponent of `FSQX`: (P - 5)/8 = 2^252 - 3 (00_scope.md R9, 41_field.md R88). -/
def SQX_EXP : Nat := 2 ^ 252 - 3

/-- `fsqx(x) = ((x mod P)^(2^252 - 3)) mod P` (41_field.md R88). -/
def fsqx (x : Nat) : Nat := fpow (x % P) SQX_EXP 252

/-- `finv(x)`: 0 when x mod P = 0, otherwise the y in [1, P) with x * y mod P = 1 (41_field.md R87).
It is computed as `x^(P-2) mod P`, which R87 gives as equal to it for every x, zero included; the
method is not observable. -/
def finv (x : Nat) : Nat := fpow (x % P) (P - 2) 255

/-- `SqrtRatio(u, v)` (41_field.md R89): the candidate `u·v³·(u·v⁷)^((P-5)/8)`, the test against u
before the test against -u; `none` is the spec's (false, 0). -/
def sqrtRatio (u v : Nat) : Option Nat :=
  let u := u % P
  let v := v % P
  let v3 := fmul (fsq v) v
  let v7 := fmul (fsq v3) v
  let x := fmul (fmul u v3) (fsqx (fmul u v7))
  let c := fmul v (fsq x)
  if c = u then some x
  else if c = fsub 0 u then some (fmul x SQRTM1)
  else none

end Sys2Proof.Machine
end

