-- ==== Sys2Proof/Machine/Group.lean ====
section
/-! DEFINITION. The extended Edwards point group: constants, formulas and predicates
(43_edwards_group.md). -/

namespace Sys2Proof.Machine

/-- The curve parameter d = -121665/121666 (43_edwards_group.md R113). -/
def D : Nat := 0x52036cee2b6ffe738cc740797779e89800700a4d4141d8ab75eb4dca135978a3

/-- `D2 = fadd(D, D)` (43_edwards_group.md R113). -/
def D2 : Nat := fadd D D

/-- The base point's coordinates (43_edwards_group.md R114). -/
def BX : Nat := 0x216936d3cd6e53fec0a4e231fdd6dc5c692cc7609525a7b2c9562d608f25d51a
/-- y = 4/5 (43_edwards_group.md R114). -/
def BY : Nat := 0x6666666666666666666666666666666666666666666666666666666666666658
/-- `BT = fmul(BX, BY)` (43_edwards_group.md R114). -/
def BT : Nat := fmul BX BY

/-- The base point B = (BX, BY, 1, BT) (43_edwards_group.md R114). -/
def basePoint : Point := { X := BX, Y := BY, Z := 1, T := BT }

/-- The identity (0, 1, 1, 0) (43_edwards_group.md R111). -/
def identity : Point := { X := 0, Y := 1, Z := 1, T := 0 }

/-- `PointAdd` (43_edwards_group.md R118). -/
def pointAdd (p q : Point) : Point :=
  let A := fmul (fsub p.Y p.X) (fsub q.Y q.X)
  let B := fmul (fadd p.Y p.X) (fadd q.Y q.X)
  let C := fmul (fmul p.T D2) q.T
  let E0 := fmul (fmul p.Z 2) q.Z
  let E := fsub B A
  let F := fsub E0 C
  let G := fadd E0 C
  let H := fadd B A
  { X := fmul E F, Y := fmul G H, Z := fmul F G, T := fmul E H }

/-- `PointDouble` (43_edwards_group.md R120); T is not used. -/
def pointDouble (p : Point) : Point :=
  let A := fsq p.X
  let B := fsq p.Y
  let C := fmul 2 (fsq p.Z)
  let H := fadd A B
  let E := fsub H (fsq (fadd p.X p.Y))
  let G := fsub A B
  let F := fadd C G
  { X := fmul E F, Y := fmul G H, Z := fmul F G, T := fmul E H }

/-- `PointNeg((X, Y, Z, T)) = (fsub(0, X), Y, Z, fsub(0, T))` (43_edwards_group.md R123; 90_conflicts.md
C2 sets the source's "negate y and t" aside). -/
def pointNeg (p : Point) : Point := { X := fsub 0 p.X, Y := p.Y, Z := p.Z, T := fsub 0 p.T }

/-- The predicate `ValidPoint` (43_edwards_group.md R112). The core never evaluates it. -/
abbrev ValidPoint (p : Point) : Prop :=
  p.Z % P ≠ 0 ∧ fmul p.X p.Y = fmul p.Z p.T ∧
    fsub (fsq p.Y) (fsq p.X) = fadd (fsq p.Z) (fmul D (fsq p.T))

/-- The predicate `PointEq` (43_edwards_group.md R122), the source's `pointsEqual`; not a command. -/
abbrev PointEq (p q : Point) : Prop :=
  fmul p.X q.Z = fmul q.X p.Z ∧ fmul p.Y q.Z = fmul q.Y p.Z

/-- `Affine(p)`: (X/Z, Y/Z) in the field (43_edwards_group.md R110). -/
def affine (p : Point) : Nat × Nat := (fmul p.X (finv p.Z), fmul p.Y (finv p.Z))

/-- The group law in affine form (43_edwards_group.md R116): what "the sum" of two points is. -/
def affineAdd (a b : Nat × Nat) : Nat × Nat :=
  let t := fmul (fmul D (fmul a.1 b.1)) (fmul a.2 b.2)
  (fmul (fadd (fmul a.1 b.2) (fmul b.1 a.2)) (finv (fadd 1 t)),
   fmul (fadd (fmul a.2 b.2) (fmul a.1 b.1)) (finv (fsub 1 t)))

end Sys2Proof.Machine
end

