-- ==== Sys2Proof/Machine/Codec.lean ====
section
/-! DEFINITION. Point compression and decompression (45_point_codec.md). -/

namespace Sys2Proof.Machine

/-- `Compress` (45_point_codec.md R146): y with the sign of x in bit 255; T is not used. -/
def compress (q : Point) : Nat :=
  let zi := finv q.Z
  let x := fmul q.X zi
  let y := fmul q.Y zi
  y + x % 2 * 2 ^ 255

/-- `Decompress` (45_point_codec.md R147); `none` is the spec's (false, -). x = 0 with the sign bit
set is accepted (R150, decision D22). -/
def decompress (c : Word) : Option Point :=
  let sign := c.toNat / 2 ^ 255
  let y := c.toNat % 2 ^ 255
  if y ≥ P then none
  else
    let yy := fsq y
    let u := fsub yy 1
    let v := fadd (fmul D yy) 1
    match sqrtRatio u v with
    | none => none
    | some x =>
      let x := if x % 2 ≠ sign then fsub 0 x else x
      some { X := x, Y := y, Z := 1, T := fmul x y }

/-- `PCMP wd, pa` (45_point_codec.md R146). -/
def execPcmp (rd : WReg) (ra : PView) (s : State) : Host.Outcome State Fault Refusal :=
  .next ((s.putInt rd (compress (s.readP ra))).complete)

/-- `PDEC pd, wa` (45_point_codec.md R147, R148): code 1 and nothing else on a buffer that is no
point. -/
def execPdec (rd : PView) (ra : WReg) (s : State) : Host.Outcome State Fault Refusal :=
  match decompress (s.readW ra) with
  | some q => .next ((s.writeP rd q).complete)
  | none => .next (s.raise .invalidPoint)

end Sys2Proof.Machine
end

