-- ==== Sys2Proof/Machine/FieldCommands.lean ====
section
/-! DEFINITION. The meanings of the eight field commands (41_field.md). Each reads its sources from
the state it is given before it writes (10_state.md R24). -/

namespace Sys2Proof.Machine

/-- `FRED wd, wa` (41_field.md R82). -/
def execFred (rd ra : WReg) (s : State) : Host.Outcome State Fault Refusal :=
  .next ((s.putInt rd (fred (s.intOf ra))).complete)

/-- `FADD wd, wa, wb` (41_field.md R83). -/
def execFadd (rd ra rb : WReg) (s : State) : Host.Outcome State Fault Refusal :=
  .next ((s.putInt rd (fadd (s.intOf ra) (s.intOf rb))).complete)

/-- `FSUB wd, wa, wb` (41_field.md R84): `ra` is the minuend. -/
def execFsub (rd ra rb : WReg) (s : State) : Host.Outcome State Fault Refusal :=
  .next ((s.putInt rd (fsub (s.intOf ra) (s.intOf rb))).complete)

/-- `FMUL wd, wa, wb` (41_field.md R85). -/
def execFmul (rd ra rb : WReg) (s : State) : Host.Outcome State Fault Refusal :=
  .next ((s.putInt rd (fmul (s.intOf ra) (s.intOf rb))).complete)

/-- `FPSQ wd, wa, wb, k` (41_field.md R86). -/
def execFpsq (rd ra rb : WReg) (k : Nat) (s : State) : Host.Outcome State Fault Refusal :=
  .next ((s.putInt rd (fpsq (s.intOf ra) k (s.intOf rb))).complete)

/-- `FINV wd, wa` (41_field.md R87). -/
def execFinv (rd ra : WReg) (s : State) : Host.Outcome State Fault Refusal :=
  .next ((s.putInt rd (finv (s.intOf ra))).complete)

/-- `FSQX wd, wa` (41_field.md R88). -/
def execFsqx (rd ra : WReg) (s : State) : Host.Outcome State Fault Refusal :=
  .next ((s.putInt rd (fsqx (s.intOf ra))).complete)

/-- `FSQRT wd, wa, wb` (41_field.md R90): code 3 and nothing else when there is no root. -/
def execFsqrt (rd ra rb : WReg) (s : State) : Host.Outcome State Fault Refusal :=
  match sqrtRatio (s.intOf ra) (s.intOf rb) with
  | some x => .next ((s.putInt rd x).complete)
  | none => .next (s.raise .noSquareRoot)

end Sys2Proof.Machine
end

