-- ==== Sys2Proof/Machine/FixedBase.lean ====
section
/-! DEFINITION. The fixed-base table, the digit recoding and `SMULB` (44_fixed_base.md). -/

namespace Sys2Proof.Machine

/-- n doublings of a point. -/
def doubleTimes : Nat → Point → Point
  | 0, q => q
  | n + 1, q => doubleTimes n (pointDouble q)

/-- The base of window `w`, in the class of `2^(8w)·B`: "repeatedly double to produce 33 window
'rungs'", eight doublings apart (44_fixed_base.md R130). -/
def rung : Nat → Point
  | 0 => basePoint
  | w + 1 => doubleTimes 8 (rung w)

/-- In the class of `(j + 1)·base`: the base and its sums with itself, "within each rung add the base
127 times" (44_fixed_base.md R130; 90_conflicts.md C1: consecutive multiples, not odd ones). -/
def multipleOf (base : Point) : Nat → Point
  | 0 => base
  | j + 1 => pointAdd (multipleOf base j) base

/-- The representative with Z = 1: `(x, y, 1, fmul(x, y))` of the affine pair (44_fixed_base.md R131). -/
def normalise (q : Point) : Point :=
  let x := fmul q.X (finv q.Z)
  let y := fmul q.Y (finv q.Z)
  { X := x, Y := y, Z := 1, T := fmul x y }

/-- `TBL[w][j]`, w in 0..32, j in 0..127: the point `(j + 1)·2^(8w)·B`, stored with Z = 1
(44_fixed_base.md R130, R131). A constant of the core (R132, 10_state.md R32): a total function of
(window, index). -/
def tbl (w j : Nat) : Point := normalise (multipleOf (rung w) j)

/-- `(w < 32) ? s[8w+7:8w] : 0` (44_fixed_base.md R133). -/
def scalarByte (s w : Nat) : Nat := if w < 32 then s / 2 ^ (8 * w) % 256 else 0

/-- The digits of the `n` windows from `w` on, with the carry into window `w` (44_fixed_base.md R133):
a digit carries when it exceeds 128. -/
def recode (s : Nat) : Nat → Nat → Nat → List Int
  | 0, _, _ => []
  | n + 1, w, carry =>
    let t := scalarByte s w + carry
    if t > 128 then ((t : Int) - 256) :: recode s n (w + 1) 1
    else (t : Int) :: recode s n (w + 1) 0

/-- `Digits(s)`: d[0..32] (44_fixed_base.md R133). -/
def digits (s : Nat) : List Int := recode s 33 0 0

/-- One turn of the loop of `MulBase` (44_fixed_base.md R135): a positive digit adds its entry, a
negative one the negated entry, zero leaves the accumulator. -/
def accumulate (w : Nat) (d : Int) (acc : Point) : Point :=
  if d > 0 then pointAdd acc (tbl w (d.toNat - 1))
  else if d < 0 then pointAdd acc (pointNeg (tbl w ((-d).toNat - 1)))
  else acc

/-- The loop of `MulBase` from window `w` upward (44_fixed_base.md R135). -/
def mulBaseFrom : Nat → List Int → Point → Point
  | _, [], acc => acc
  | w, d :: rest, acc => mulBaseFrom (w + 1) rest (accumulate w d acc)

/-- `MulBase(s)` (44_fixed_base.md R135). -/
def mulBase (s : Nat) : Point := mulBaseFrom 0 (digits s) identity

/-- `SMULB pd, wa` (44_fixed_base.md R135). -/
def execSmulb (rd : PView) (ra : WReg) (s : State) : Host.Outcome State Fault Refusal :=
  .next ((s.writeP rd (mulBase (s.intOf ra))).complete)

end Sys2Proof.Machine
end

