-- ==== Sys2Proof/Machine/GroupCommands.lean ====
section
/-! DEFINITION. The meanings of the group commands (43_edwards_group.md). Both are total and never
check their inputs (R118, R121). -/

namespace Sys2Proof.Machine

/-- `PADD pd, pa, pb` (43_edwards_group.md R118). -/
def execPadd (rd ra rb : PView) (s : State) : Host.Outcome State Fault Refusal :=
  .next ((s.writeP rd (pointAdd (s.readP ra) (s.readP rb))).complete)

/-- `PDBL pd, pa` (43_edwards_group.md R120). -/
def execPdbl (rd ra : PView) (s : State) : Host.Outcome State Fault Refusal :=
  .next ((s.writeP rd (pointDouble (s.readP ra))).complete)

end Sys2Proof.Machine
end

