-- ==== Sys2Proof/Machine/Flags.lean ====
section
/-! DEFINITION. `STATUS` as the host reads it, and the one condition flag (10_state.md R27, R29). -/

namespace Sys2Proof.Machine

/-- The number of a result code (60_exceptions.md R176). -/
def codeNumber : ResultCode → Nat
  | .ok => 0
  | .invalidPoint => 1
  | .illegalCommand => 2
  | .noSquareRoot => 3

/-- `STATUS` as a 32-bit word: `CODE` in bits 3:0, `ZF` in bit 4, bits 31:5 read as 0
(10_state.md R27). -/
def statusWord (st : Status) : BusWord := BitVec.ofNat 32 (codeNumber st.code + 16 * st.zf.toNat)

/-- `(r = 0) ? 1 : 0`: the flag of an `XLAD` result (46_x25519_ladder.md R165). -/
def zeroFlag (r : Nat) : Bool := r == 0

/-- `STATUS.ZF <- z`; `CODE` keeps its value. -/
def State.setZf (s : State) (z : Bool) : State := { s with status := { s.status with zf := z } }

end Sys2Proof.Machine
end

