-- ==== Sys2Proof/Machine/Ladder.lean ====
section
/-! DEFINITION. The X25519 Montgomery ladder (46_x25519_ladder.md). -/

namespace Sys2Proof.Machine

/-- `A24` = (486662 - 2)/4 (46_x25519_ladder.md R161). -/
def A24 : Nat := 121665

/-- `(0 - s) mod 2^256`: all ones when s = 1, all zeros when s = 0 (46_x25519_ladder.md R162). -/
def swapMask (swap : Bool) : Nat := (2 ^ 256 - swap.toNat) % 2 ^ 256

/-- `CSwap(s, a, b)` in its XOR-masked form (46_x25519_ladder.md R162, R168). -/
def cswap (swap : Bool) (a b : Nat) : Nat × Nat :=
  let t := swapMask swap &&& (a ^^^ b)
  (a ^^^ t, b ^^^ t)

/-- The two point pairs (x2, z2) and (x3, z3). -/
structure Pairs where
  x2 : Nat
  z2 : Nat
  x3 : Nat
  z3 : Nat
  deriving DecidableEq, Repr

/-- `(x2, x3) <- CSwap(swap, x2, x3)`, `(z2, z3) <- CSwap(swap, z2, z3)` (46_x25519_ladder.md R164). -/
def swapPairs (swap : Bool) (q : Pairs) : Pairs :=
  let x := cswap swap q.x2 q.x3
  let z := cswap swap q.z2 q.z3
  { x2 := x.1, z2 := z.1, x3 := x.2, z3 := z.2 }

/-- `LadderStep` (46_x25519_ladder.md R163), with x1 the input u. -/
def ladderStep (x1 : Nat) (q : Pairs) : Pairs :=
  let A := fadd q.x2 q.z2
  let AA := fsq A
  let B := fsub q.x2 q.z2
  let BB := fsq B
  let E := fsub AA BB
  let C := fadd q.x3 q.z3
  let Dd := fsub q.x3 q.z3
  let DA := fmul Dd A
  let CB := fmul C B
  { x3 := fsq (fadd DA CB),
    z3 := fmul x1 (fsq (fsub DA CB)),
    x2 := fmul AA BB,
    z2 := fmul E (fadd AA (fmul A24 E)) }

/-- The loop for t = n - 1 down to 0 and the final swap (46_x25519_ladder.md R164); `swap` is the bit
of the turn before. -/
def ladderFrom (k : Word) (x1 : Nat) : Nat → Bool → Pairs → Pairs
  | 0, swap, q => swapPairs swap q
  | t + 1, swap, q =>
    let kt := k.getLsbD t
    ladderFrom k x1 t kt (ladderStep x1 (swapPairs (swap ^^ kt) q))

/-- `Ladder(kraw, uraw)` (46_x25519_ladder.md R164): bits 254 down to 0 of the clamped scalar; u is
`uraw[254:0]` (R160). -/
def ladder (kraw uraw : Word) : Nat :=
  let x1 := uraw.toNat % 2 ^ 255
  let q := ladderFrom (clamp kraw) x1 255 false { x2 := 1, z2 := 0, x3 := x1 % P, z3 := 1 }
  fmul q.x2 (finv q.z2)

/-- `XLAD wd, wa, wb` (46_x25519_ladder.md R164, R165): the only command that writes `ZF`. -/
def execXlad (rd ra rb : WReg) (s : State) : Host.Outcome State Fault Refusal :=
  let r := ladder (s.readW ra) (s.readW rb)
  .next (((s.putInt rd r).setZf (zeroFlag r)).complete)

end Sys2Proof.Machine
end

