-- ==== Sys2Proof/Machine/Dispatch.lean ====
section
/-! DEFINITION. One arm per command: its meaning. -/

namespace Sys2Proof.Machine

/-- Execute a command (30_encoding.md R65). -/
def exec (i : Instr) (s : State) : Host.Outcome State Fault Refusal :=
  match i with
  | .fred rd ra => Sys2Proof.Machine.execFred rd ra s
  | .fadd rd ra rb => Sys2Proof.Machine.execFadd rd ra rb s
  | .fsub rd ra rb => Sys2Proof.Machine.execFsub rd ra rb s
  | .fmul rd ra rb => Sys2Proof.Machine.execFmul rd ra rb s
  | .fpsq rd ra rb k => Sys2Proof.Machine.execFpsq rd ra rb k s
  | .finv rd ra => Sys2Proof.Machine.execFinv rd ra s
  | .fsqx rd ra => Sys2Proof.Machine.execFsqx rd ra s
  | .fsqrt rd ra rb => Sys2Proof.Machine.execFsqrt rd ra rb s
  | .clamp rd ra => Sys2Proof.Machine.execClamp rd ra s
  | .padd rd ra rb => Sys2Proof.Machine.execPadd rd ra rb s
  | .pdbl rd ra => Sys2Proof.Machine.execPdbl rd ra s
  | .smulb rd ra => Sys2Proof.Machine.execSmulb rd ra s
  | .pcmp rd ra => Sys2Proof.Machine.execPcmp rd ra s
  | .pdec rd ra => Sys2Proof.Machine.execPdec rd ra s
  | .xlad rd ra rb => Sys2Proof.Machine.execXlad rd ra rb s

end Sys2Proof.Machine
end

