-- ==== Sys2Proof/Machine/HostPort.lean ====
section
/-! DEFINITION. What the core does with an event at its port: the four host transactions and the
external reset (20_memory.md R42, 70_reset_and_hazards.md R195). -/

namespace Sys2Proof.Machine

/-- Command issue: decode the word and execute it to completion; an illegal word sets
`STATUS.CODE <- 2` and does nothing else (30_encoding.md R65, R66). -/
def issueCommand (c : BusWord) (s : State) : Host.Outcome State Fault Refusal :=
  match decode c with
  | .ok i => exec i s
  | .error _ => .next (s.raise .illegalCommand)

/-- `MemRead(offset, size)` (20_memory.md R42, R43). -/
def readTransaction (offset size : Nat) (s : State) : Host.Outcome State Fault Refusal :=
  match windowCell offset size with
  | .error r => .refused r
  | .ok .command => .refused .readOfCommand
  | .ok .status => .next (s.reply (statusWord s.status))
  | .ok (.regWord i k) => .next (s.reply (busWordOf (s.readW i) k))

/-- `MemWrite(offset, size, v)` (20_memory.md R42, R43). -/
def writeTransaction (offset size : Nat) (v : BusWord) (s : State) :
    Host.Outcome State Fault Refusal :=
  match windowCell offset size with
  | .error r => .refused r
  | .ok .command => issueCommand v s
  | .ok .status => .refused .writeOfStatus
  | .ok (.regWord i k) => .next (s.writeW i (setBusWord (s.readW i) k v))

/-- Accept one event; it takes effect completely before the next (20_memory.md R49). -/
def acceptEvent (e : HostEvent) (s : State) : Host.Outcome State Fault Refusal :=
  match e with
  | .memRead offset size => readTransaction offset size s
  | .memWrite offset size v => writeTransaction offset size v s
  | .reset => .next s.externalReset

end Sys2Proof.Machine
end

