-- ==== Sys2Proof/Machine/Step.lean ====
section
/-! DEFINITION. One step of the machine: the oldest event at the port, accepted whole. -/

namespace Sys2Proof.Machine

/-- The port accepts the oldest event that has arrived (20_memory.md R49); with none, the core is idle
and everything keeps its value (60_exceptions.md R192). -/
def step (s : State) : Host.Outcome State Fault Refusal :=
  match s.port with
  | [] => .next s
  | e :: rest => acceptEvent e { s with port := rest }

/-- `s` with a command issue of the word as the next event at the port: the core has no instruction
memory, a command word is carried by value in the write to `CMD` (20_memory.md R52, log 5). -/
def State.withFetchWord (s : State) (nbits w : Nat) : State :=
  { s with port := .memWrite 0x000 4 (BitVec.ofNat 32 (w % 2 ^ nbits)) :: s.port }

end Sys2Proof.Machine
end

