-- ==== Sys2Proof/Safety.lean ====
section
/-! DEFINITION. The terms claims are made in: what a command reads and writes, which events a host may
send, what a run keeps, and reference forms of two algorithms. -/

namespace Sys2Proof

open Machine

/-- The four registers of a point view (10_state.md R21). -/
def viewRegs (j : PView) : List WReg := [viewReg j 0, viewReg j 1, viewReg j 2, viewReg j 3]

/-- The registers X, Y, Z of a view: all that `PDBL` and `PCMP` read of it (43_edwards_group.md R120,
45_point_codec.md R146: T is not used). -/
def viewRegsXYZ (j : PView) : List WReg := [viewReg j 0, viewReg j 1, viewReg j 2]

/-- The registers a command's rule names as destinations (10_state.md R24). -/
def Instr.destinations : Instr → List WReg
  | .fred rd _ => [rd]
  | .fadd rd _ _ => [rd]
  | .fsub rd _ _ => [rd]
  | .fmul rd _ _ => [rd]
  | .fpsq rd _ _ _ => [rd]
  | .finv rd _ => [rd]
  | .fsqx rd _ => [rd]
  | .fsqrt rd _ _ => [rd]
  | .clamp rd _ => [rd]
  | .padd rd _ _ => viewRegs rd
  | .pdbl rd _ => viewRegs rd
  | .smulb rd _ => viewRegs rd
  | .pcmp rd _ => [rd]
  | .pdec rd _ => viewRegs rd
  | .xlad rd _ _ => [rd]

/-- The registers a command reads (10_state.md R24). -/
def Instr.sources : Instr → List WReg
  | .fred _ ra => [ra]
  | .fadd _ ra rb => [ra, rb]
  | .fsub _ ra rb => [ra, rb]
  | .fmul _ ra rb => [ra, rb]
  | .fpsq _ ra rb _ => [ra, rb]
  | .finv _ ra => [ra]
  | .fsqx _ ra => [ra]
  | .fsqrt _ ra rb => [ra, rb]
  | .clamp _ ra => [ra]
  | .padd _ ra rb => viewRegs ra ++ viewRegs rb
  | .pdbl _ ra => viewRegsXYZ ra
  | .smulb _ ra => [ra]
  | .pcmp _ ra => viewRegsXYZ ra
  | .pdec _ ra => [ra]
  | .xlad _ ra rb => [ra, rb]

/-- The commands that read every source as a field element: the eight of 41_field.md (R80) and those
that compute with coordinates through the field helpers (43_edwards_group.md R118,
45_point_codec.md R146). -/
def Instr.readsFieldElements : Instr → Bool
  | .fred _ _ | .fadd _ _ _ | .fsub _ _ _ | .fmul _ _ _ | .fpsq _ _ _ _ | .finv _ _ | .fsqx _ _
  | .fsqrt _ _ _ | .padd _ _ _ | .pdbl _ _ | .pcmp _ _ => true
  | .clamp _ _ | .smulb _ _ | .pdec _ _ | .xlad _ _ _ => false

/-- The one command that writes `ZF` (10_state.md R29). -/
def Instr.writesZf : Instr → Bool
  | .xlad _ _ _ => true
  | .fred _ _ | .fadd _ _ _ | .fsub _ _ _ | .fmul _ _ _ | .fpsq _ _ _ _ | .finv _ _ | .fsqx _ _
  | .fsqrt _ _ _ | .clamp _ _ | .padd _ _ _ | .pdbl _ _ | .smulb _ _ | .pcmp _ _ | .pdec _ _ => false

/-- The commands whose destination is a view they leave valid when their source views are: `PADD`,
`PDBL`, `SMULB` and `PDEC` (43_edwards_group.md R121: "the points produced by this module"). -/
def Instr.makesPoints : Instr → Bool
  | .padd _ _ _ | .pdbl _ _ | .smulb _ _ | .pdec _ _ => true
  | .fred _ _ | .fadd _ _ _ | .fsub _ _ _ | .fmul _ _ _ | .fpsq _ _ _ _ | .finv _ _ | .fsqx _ _
  | .fsqrt _ _ _ | .clamp _ _ | .pcmp _ _ | .xlad _ _ _ => false

namespace Machine

/-- The issue of a command word (20_memory.md R42). -/
def issue (c : BusWord) : HostEvent := .memWrite 0x000 4 c

/-- The frame of a command (70_reset_and_hazards.md R200): no register outside `rs` has changed, and
neither has the host's side of the port. `STATUS` is stated apart. -/
def UnchangedBut (rs : List WReg) (s t : State) : Prop :=
  (∀ r, r ∉ rs → t.readW r = s.readW r) ∧ t.port = s.port ∧ t.replies = s.replies ∧
    t.resets = s.resets

/-- The events a host that keeps to 20_memory.md R42 sends, and the external reset. -/
def HostEvent.legal : HostEvent → Bool
  | .memRead offset size =>
    size == 4 && offset % 4 == 0 && (offset == 4 || (0x400 ≤ offset && offset < 0x800))
  | .memWrite offset size _ =>
    size == 4 && offset % 4 == 0 && (offset == 0 || (0x400 ≤ offset && offset < 0x800))
  | .reset => true

/-- Every event waiting at the port is legal. -/
def LegalPort (s : State) : Prop := ∀ e ∈ s.port, e.legal = true

/-- Whether an event can write register `r`: a register write of one of its words, a command that has
it as a destination, or a reset (10_state.md R25). -/
def HostEvent.mayWrite (e : HostEvent) (r : WReg) : Bool :=
  match e with
  | .memRead _ _ => false
  | .memWrite offset _ c =>
    if offset = 0 then
      match decode c with
      | .ok i => decide (r ∈ i.destinations)
      | .error _ => false
    else decide ((offset - 0x400) / 32 = r.val)
  | .reset => true

/-- Register `r` holds `v` and nothing waiting at the port can write it. -/
def Retained (r : WReg) (v : Word) (s : State) : Prop :=
  s.readW r = v ∧ ∀ e ∈ s.port, e.mayWrite r = false

/-- An event of point traffic: a read, or the issue of a command that makes points or of an illegal
word. -/
def HostEvent.keepsPoints : HostEvent → Bool
  | .memRead _ _ => true
  | .memWrite offset _ c =>
    offset == 0 && match decode c with
      | .ok i => i.makesPoints
      | .error _ => true
  | .reset => false

/-- Every point view holds a valid point and only point traffic is waiting: the duty 43_edwards_group.md
R121 puts on callers, "callers must only pass points produced by this module or validated via the
codec". -/
def PointTraffic (s : State) : Prop :=
  (∀ j, ValidPoint (s.readP j)) ∧ ∀ e ∈ s.port, e.keepsPoints = true

/-- The issue of eight `SMULB`, one into each view, of the scalars in the registers `ra`: one way a
host makes every point operand valid before use (70_reset_and_hazards.md R199). -/
def eightSmulbs (ra : PView → WReg) : List HostEvent :=
  (List.finRange 8).map (fun j => issue (encode (.smulb j (ra j))))

/-- A run of any length neither faults nor is refused. -/
def NeverStops (s : State) : Prop := ∀ n, ∃ t, Sys2Proof.core.run n s = .next t

/-! ## Reference forms -/

/-- (x, y) is a point of the curve -x² + y² = 1 + d·x²·y² (43_edwards_group.md R110). -/
def OnCurve (x y : Nat) : Prop := (y ^ 2) % P = (1 + D * x ^ 2 * y ^ 2 + x ^ 2) % P

/-- n times a point, in affine pairs: "adding the base point to itself `scalar` times"
(44_fixed_base.md R134), 0 times being the identity (43_edwards_group.md R111, R116). -/
def affineMul : Nat → Nat × Nat → Nat × Nat
  | 0, _ => (0, 1)
  | n + 1, a => affineAdd (affineMul n a) a

/-- N, the order of the base point (00_scope.md R9, 43_edwards_group.md R114). No command uses it. -/
def groupOrder : Nat := 2 ^ 252 + 0x14def9dea2f79cd65812631a5cf5d3ed

/-- The seven low-order u-coordinates below 2^255 (95_test_vectors.md section 2.6, rows L1 to L7;
46_x25519_ladder.md R169). -/
def lowOrderU : List Nat :=
  [ 0, 1,
    0x00b8495f16056286fdb1329ceb8d09da6ac49ff1fae35616aeb8413b7c7aebe0,
    0x57119fd0dd4e22d8868e1c58c45c44045bef839c55b1d0b1248c50a3bc959c5f,
    P - 1, P, P + 1 ]

/-- The two pairs of the reference ladder, as integers. -/
structure IntPairs where
  x2 : Int
  z2 : Int
  x3 : Int
  z3 : Int
  deriving DecidableEq, Repr

/-- `LadderStep` of 46_x25519_ladder.md R163 written out over the integers, each result reduced modulo
2^255 - 19 once at its end; 121665 is A24 (R161). -/
def referenceStep (x1 : Int) (q : IntPairs) : IntPairs :=
  let A := q.x2 + q.z2
  let B := q.x2 - q.z2
  let E := A * A - B * B
  let DA := (q.x3 - q.z3) * A
  let CB := (q.x3 + q.z3) * B
  { x2 := A * A * (B * B) % (2 ^ 255 - 19),
    z2 := E * (A * A + 121665 * E) % (2 ^ 255 - 19),
    x3 := (DA + CB) * (DA + CB) % (2 ^ 255 - 19),
    z3 := x1 * ((DA - CB) * (DA - CB)) % (2 ^ 255 - 19) }

/-- The ladder over the reference step, bits t - 1 down to 0 of k, with a branch in place of the
conditional swap: "Its value is the same as an `if`" (46_x25519_ladder.md R162). A set bit exchanges
the pairs, steps, and exchanges them back. -/
def branchingLadder (k : Nat) (x1 : Int) : Nat → IntPairs → IntPairs
  | 0, q => q
  | t + 1, q =>
    branchingLadder k x1 t
      (if k / 2 ^ t % 2 = 1 then
        let r := referenceStep x1 { x2 := q.x3, z2 := q.z3, x3 := q.x2, z3 := q.z2 }
        { x2 := r.x3, z2 := r.z3, x3 := r.x2, z3 := r.z2 }
      else referenceStep x1 q)

end Machine

end Sys2Proof
end

