-- ==== Sys2Proof/Certificates/Slice0/Obligations.lean ====
section
/-! DEFINITION. The statements about this model, from the spec's numbered rules. -/

open Sys2Proof Sys2Proof.Machine

/-! ## Encoding (30_encoding.md) -/

/-- Every well-formed command's word decodes to it (R61, R62, R64, R65). -/
def Obligations.EncodedCommandsDecodeBack : Prop :=
  ∀ i : Instr, WellFormed i → decode (encode i) = .ok i

/-- Every word the decoder accepts is the word of a well-formed command: no bit of a word is ignored
(R61, R62, R64, R66). -/
def Obligations.DecodedCommandsEncodeBack : Prop :=
  ∀ (c : BusWord) (i : Instr), decode c = .ok i → WellFormed i ∧ encode i = c

/-- R66: a word that matches no row of the opcode map sets CODE to 2 and does nothing else; the CMD
write completes. -/
def Obligations.IllegalWordsOnlySetTheCode : Prop :=
  ∀ (s : State) (c : BusWord) (rest : List HostEvent),
    (∀ row ∈ ([(0x10000000, 0xFF003FFF), (0x11000000, 0xFF0001FF), (0x12000000, 0xFF0001FF),
        (0x13000000, 0xFF0001FF), (0x14000000, 0xFF000100), (0x15000000, 0xFF003FFF),
        (0x16000000, 0xFF003FFF), (0x17000000, 0xFF0001FF), (0x20000000, 0xFF003FFF),
        (0x30000000, 0xFF18C7FF), (0x31000000, 0xFF18FFFF), (0x40000000, 0xFF183FFF),
        (0x50000000, 0xFF00FFFF), (0x51000000, 0xFF183FFF), (0x60000000, 0xFF0001FF)] :
        List (BusWord × BusWord)), c &&& row.2 ≠ row.1) →
    s.port = .memWrite 0x000 4 c :: rest →
    ∃ t, step s = .next t ∧ (∀ r, t.readW r = s.readW r) ∧
      t.status = { code := .illegalCommand, zf := s.status.zf } ∧
      t.port = rest ∧ t.replies = s.replies ∧ t.resets = s.resets

/-- A step whose oldest event issues a word that decodes to i is exec of i, in the state from which
that event has been taken (R65). -/
def Obligations.StepRunsTheDecodedCommand : Prop :=
  ∀ (s : State) (c : BusWord) (i : Instr) (rest : List HostEvent),
    s.port = .memWrite 0x000 4 c :: rest → decode c = .ok i →
    step s = exec i { s with port := rest }

/-- One word per command, written out from R61 and R64 (the words of R71 and 95_test_vectors.md section
2.7), and two illegal ones. That the decoder names a cause, and which, is the model's choice (log 8);
that the two words are illegal is R66's. -/
def Obligations.SampleWordsDecode : Prop :=
  decode 0x10004000 = .ok (.fred 0 1) ∧ decode 0x11004400 = .ok (.fadd 0 1 2) ∧
  decode 0x12FFBA00 = .ok (.fsub 31 30 29) ∧ decode 0x13184400 = .ok (.fmul 3 1 2) ∧
  decode 0x1429080A = .ok (.fpsq 5 4 4 10) ∧ decode 0x15004000 = .ok (.finv 0 1) ∧
  decode 0x16004000 = .ok (.fsqx 0 1) ∧ decode 0x17004400 = .ok (.fsqrt 0 1 2) ∧
  decode 0x20840000 = .ok (.clamp 16 16) ∧ decode 0x30400800 = .ok (.padd 2 0 1) ∧
  decode 0x31410000 = .ok (.pdbl 2 1) ∧ decode 0x40040000 = .ok (.smulb 0 16) ∧
  decode 0x50880000 = .ok (.pcmp 17 0) ∧ decode 0x51244000 = .ok (.pdec 1 17) ∧
  decode 0x60100200 = .ok (.xlad 2 0 1) ∧
  decode 0x30080000 = .error .pointOperand ∧ decode 0x13184500 = .error .reservedBit

/-! ## Field commands (41_field.md) -/

/-- R82: FRED writes w[ra] mod P, sets CODE to 0, and changes nothing else. -/
def Obligations.FredReducesModuloP : Prop :=
  ∀ (rd ra : WReg) (s : State),
    decode (BitVec.ofNat 32 (0x10 * 2 ^ 24 + rd.val * 2 ^ 19 + ra.val * 2 ^ 14)) =
      .ok (.fred rd ra) ∧
    ∃ t, exec (.fred rd ra) s = .next t ∧
      (t.readW rd).toNat = (s.readW ra).toNat % (2 ^ 255 - 19) ∧
      UnchangedBut [rd] s t ∧ t.status = { code := .ok, zf := s.status.zf }

/-- R83: FADD writes the sum modulo P, the 257-bit sum taken exactly. -/
def Obligations.FaddAddsModuloP : Prop :=
  ∀ (rd ra rb : WReg) (s : State),
    decode (BitVec.ofNat 32 (0x11 * 2 ^ 24 + rd.val * 2 ^ 19 + ra.val * 2 ^ 14 + rb.val * 2 ^ 9)) =
      .ok (.fadd rd ra rb) ∧
    ∃ t, exec (.fadd rd ra rb) s = .next t ∧
      (t.readW rd).toNat = ((s.readW ra).toNat + (s.readW rb).toNat) % (2 ^ 255 - 19) ∧
      UnchangedBut [rd] s t ∧ t.status = { code := .ok, zf := s.status.zf }

/-- R84: FSUB writes the remainder of the integer difference w[ra] - w[rb], which is in [0, P). -/
def Obligations.FsubSubtractsModuloP : Prop :=
  ∀ (rd ra rb : WReg) (s : State),
    decode (BitVec.ofNat 32 (0x12 * 2 ^ 24 + rd.val * 2 ^ 19 + ra.val * 2 ^ 14 + rb.val * 2 ^ 9)) =
      .ok (.fsub rd ra rb) ∧
    ∃ t, exec (.fsub rd ra rb) s = .next t ∧
      ((t.readW rd).toNat : Int) =
        (((s.readW ra).toNat : Int) - ((s.readW rb).toNat : Int)) % (2 ^ 255 - 19) ∧
      UnchangedBut [rd] s t ∧ t.status = { code := .ok, zf := s.status.zf }

/-- R85: FMUL writes the product modulo P, the 512-bit product taken exactly. -/
def Obligations.FmulMultipliesModuloP : Prop :=
  ∀ (rd ra rb : WReg) (s : State),
    decode (BitVec.ofNat 32 (0x13 * 2 ^ 24 + rd.val * 2 ^ 19 + ra.val * 2 ^ 14 + rb.val * 2 ^ 9)) =
      .ok (.fmul rd ra rb) ∧
    ∃ t, exec (.fmul rd ra rb) s = .next t ∧
      (t.readW rd).toNat = ((s.readW ra).toNat * (s.readW rb).toNat) % (2 ^ 255 - 19) ∧
      UnchangedBut [rd] s t ∧ t.status = { code := .ok, zf := s.status.zf }

/-- R86: FPSQ writes ((x mod P)^(2^k) * f) mod P for every count k that imm8 carries. -/
def Obligations.FpsqIsThePowerTimesTheFactor : Prop :=
  ∀ (rd ra rb : WReg) (k : Nat) (s : State), k ≤ 255 →
    decode (BitVec.ofNat 32
      (0x14 * 2 ^ 24 + rd.val * 2 ^ 19 + ra.val * 2 ^ 14 + rb.val * 2 ^ 9 + k)) =
      .ok (.fpsq rd ra rb k) ∧
    ∃ t, exec (.fpsq rd ra rb k) s = .next t ∧
      (t.readW rd).toNat =
        (((s.readW ra).toNat % (2 ^ 255 - 19)) ^ (2 ^ k) * (s.readW rb).toNat) % (2 ^ 255 - 19) ∧
      UnchangedBut [rd] s t ∧ t.status = { code := .ok, zf := s.status.zf }

/-- R87: FINV writes 0 for a source that is 0 modulo P, and otherwise the one y in [1, P) with
x * y mod P = 1. -/
def Obligations.FinvWritesTheUniqueInverse : Prop :=
  ∀ (rd ra : WReg) (s : State),
    decode (BitVec.ofNat 32 (0x15 * 2 ^ 24 + rd.val * 2 ^ 19 + ra.val * 2 ^ 14)) =
      .ok (.finv rd ra) ∧
    ∃ t, exec (.finv rd ra) s = .next t ∧
      ((s.readW ra).toNat % (2 ^ 255 - 19) = 0 → (t.readW rd).toNat = 0) ∧
      ((s.readW ra).toNat % (2 ^ 255 - 19) ≠ 0 →
        1 ≤ (t.readW rd).toNat ∧ (t.readW rd).toNat < 2 ^ 255 - 19 ∧
        (s.readW ra).toNat * (t.readW rd).toNat % (2 ^ 255 - 19) = 1 ∧
        ∀ y, 1 ≤ y → y < 2 ^ 255 - 19 → (s.readW ra).toNat * y % (2 ^ 255 - 19) = 1 →
          y = (t.readW rd).toNat) ∧
      UnchangedBut [rd] s t ∧ t.status = { code := .ok, zf := s.status.zf }

/-- R88: FSQX writes ((x mod P)^(2^252 - 3)) mod P, and the eleven FPSQ steps the rule lists give the
same value. -/
def Obligations.FsqxRaisesToTheFixedExponent : Prop :=
  (∀ (rd ra : WReg) (s : State),
    decode (BitVec.ofNat 32 (0x16 * 2 ^ 24 + rd.val * 2 ^ 19 + ra.val * 2 ^ 14)) =
      .ok (.fsqx rd ra) ∧
    ∃ t, exec (.fsqx rd ra) s = .next t ∧
      (t.readW rd).toNat =
        ((s.readW ra).toNat % (2 ^ 255 - 19)) ^ (2 ^ 252 - 3) % (2 ^ 255 - 19) ∧
      UnchangedBut [rd] s t ∧ t.status = { code := .ok, zf := s.status.zf }) ∧
  (∀ x : Nat,
    let b2 := fpsq x 1 x
    let b4 := fpsq b2 2 b2
    let b5 := fpsq b4 1 x
    let b10 := fpsq b5 5 b5
    let b20 := fpsq b10 10 b10
    let b40 := fpsq b20 20 b20
    let b80 := fpsq b40 40 b40
    let b160 := fpsq b80 80 b80
    let b240 := fpsq b160 80 b80
    let b250 := fpsq b240 10 b10
    fsqx x = fpsq b250 2 x)

/-- R89, R90: with the candidate x = u·v³·(u·v⁷)^((P-5)/8), FSQRT writes x when v·x² = u, otherwise
x·SQRTM1 when v·x² = -u, and otherwise sets CODE to 3 and writes no register. What it writes is a
canonical root of u/v; and it fails exactly when there is none ("when u/v is not a square modulo P or
v ≡ 0 with u ≢ 0", that is when no y has v·y² ≡ u). -/
def Obligations.FsqrtFollowsTheRootFormula : Prop :=
  ∀ (rd ra rb : WReg) (s : State),
    decode (BitVec.ofNat 32 (0x17 * 2 ^ 24 + rd.val * 2 ^ 19 + ra.val * 2 ^ 14 + rb.val * 2 ^ 9)) =
      .ok (.fsqrt rd ra rb) ∧
    ∃ t, exec (.fsqrt rd ra rb) s = .next t ∧
      (let p := 2 ^ 255 - 19
       let u := (s.readW ra).toNat
       let v := (s.readW rb).toNat
       let x := u * v ^ 3 * (u * v ^ 7 % p) ^ ((p - 5) / 8) % p
       if v * x ^ 2 % p = u % p then
         (t.readW rd).toNat = x ∧ UnchangedBut [rd] s t ∧
           t.status = { code := .ok, zf := s.status.zf }
       else if (v * x ^ 2 + u) % p = 0 then
         (t.readW rd).toNat = x * SQRTM1 % p ∧ UnchangedBut [rd] s t ∧
           t.status = { code := .ok, zf := s.status.zf }
       else UnchangedBut [] s t ∧ t.status = { code := .noSquareRoot, zf := s.status.zf }) ∧
      ((∃ y, (s.readW rb).toNat * y ^ 2 % (2 ^ 255 - 19) =
          (s.readW ra).toNat % (2 ^ 255 - 19)) →
        t.status.code = .ok ∧ (t.readW rd).toNat < 2 ^ 255 - 19 ∧
        (s.readW rb).toNat * (t.readW rd).toNat ^ 2 % (2 ^ 255 - 19) =
          (s.readW ra).toNat % (2 ^ 255 - 19)) ∧
      ((¬ ∃ y, (s.readW rb).toNat * y ^ 2 % (2 ^ 255 - 19) =
          (s.readW ra).toNat % (2 ^ 255 - 19)) → t.status.code = .noSquareRoot)

/-- R92: the identities of the field helpers. -/
def Obligations.FieldIdentitiesHold : Prop :=
  (∀ x, fmul x (finv x) = if x % (2 ^ 255 - 19) = 0 then 0 else 1) ∧
  (∀ x, finv x = fpsq (fsqx x) 3 (fmul (fsq x) x)) ∧
  (∀ x j k, fpsq x (j + k) 1 = fpsq (fpsq x j 1) k 1) ∧
  (∀ a b, fadd (fsub a b) b = a % (2 ^ 255 - 19))

/-! ## Clamping and byte images (42_bytes_clamp.md) -/

/-- R102: CLAMP clears bits 0, 1, 2 and 255, sets bit 254 and copies the others. -/
def Obligations.ClampSetsAndClearsTheFiveBits : Prop :=
  ∀ (rd ra : WReg) (s : State),
    decode (BitVec.ofNat 32 (0x20 * 2 ^ 24 + rd.val * 2 ^ 19 + ra.val * 2 ^ 14)) =
      .ok (.clamp rd ra) ∧
    ∃ t, exec (.clamp rd ra) s = .next t ∧
      (∀ n, n < 256 → (t.readW rd).getLsbD n =
        if n < 3 ∨ n = 255 then false else if n = 254 then true else (s.readW ra).getLsbD n) ∧
      UnchangedBut [rd] s t ∧ t.status = { code := .ok, zf := s.status.zf }

/-- R102's corner cases: a clamped value is a multiple of 8 in [2^254, 2^255), and clamping it again
changes nothing. -/
def Obligations.ClampedScalarsStayClamped : Prop :=
  ∀ v : Word, (clamp v).toNat % 8 = 0 ∧ 2 ^ 254 ≤ (clamp v).toNat ∧ (clamp v).toNat < 2 ^ 255 ∧
    clamp (clamp v) = clamp v

/-- R101: the conversions between a 256-bit integer and its 32-byte buffer round-trip exactly. -/
def Obligations.ByteImagesRoundTrip : Prop :=
  (∀ v : Word, (intToBytes v).length = 32 ∧ bytesToInt (intToBytes v) = v.toNat) ∧
  (∀ b : List Byte, b.length = 32 → intToBytes (BitVec.ofNat 256 (bytesToInt b)) = b)

/-! ## The point group (43_edwards_group.md) -/

/-- R113 to R115, R161: the constants are what their rules define: d = -121665/121666 is no square
modulo P, the base point has y = 4/5 and an even x, lies on the curve and gives the identity when
added to itself N times, SQRTM1 is 2^((P-1)/4), and A24 is (486662 - 2)/4. The rules take these
from general knowledge, and the numerals in decimal are the spec's second copy of the model's. -/
def Obligations.ConstantsMeetTheirDefinitions : Prop :=
  D = 37095705934669439343138083508754565189542113879843219016388785533085940283555 ∧
  D = fmul (fsub 0 121665) (finv 121666) ∧ D2 = (D + D) % (2 ^ 255 - 19) ∧
  (∀ x, x ^ 2 % (2 ^ 255 - 19) ≠ D) ∧
  BX = 15112221349535400772501151409588531511454012693041857206046113283949847762202 ∧
  BY = 46316835694926478169428394003475163141307993866256225615783033603165251855960 ∧
  BY = fmul 4 (finv 5) ∧ BX % 2 = 0 ∧ BT = BX * BY % (2 ^ 255 - 19) ∧
  OnCurve BX BY ∧ ValidPoint { X := BX, Y := BY, Z := 1, T := BT } ∧
  affineMul groupOrder (BX, BY) = (0, 1) ∧
  SQRTM1 = 19681161376707505956807079304988542015446066515923890162744021073123829784752 ∧
  SQRTM1 = 2 ^ ((2 ^ 255 - 19 - 1) / 4) % (2 ^ 255 - 19) ∧ fsq SQRTM1 = 2 ^ 255 - 19 - 1 ∧
  4 * A24 + 2 = 486662

/-- R118: PADD writes the four coordinates of the unified formula, computed exactly and reduced. -/
def Obligations.PaddFollowsTheUnifiedFormula : Prop :=
  ∀ (rd ra rb : PView) (s : State),
    decode (BitVec.ofNat 32 (0x30 * 2 ^ 24 + 4 * rd.val * 2 ^ 19 + 4 * ra.val * 2 ^ 14 +
      4 * rb.val * 2 ^ 9)) = .ok (.padd rd ra rb) ∧
    ∃ t, exec (.padd rd ra rb) s = .next t ∧
      (let w := fun (j : PView) (k : Fin 4) => ((s.readW (viewReg j k)).toNat : Int)
       let A := (w ra 1 - w ra 0) * (w rb 1 - w rb 0)
       let B := (w ra 1 + w ra 0) * (w rb 1 + w rb 0)
       let C := w ra 3 * (2 * D) * w rb 3
       let E0 := w ra 2 * 2 * w rb 2
       let E := B - A
       let F := E0 - C
       let G := E0 + C
       let H := B + A
       let r := fun (k : Fin 4) => ((t.readW (viewReg rd k)).toNat : Int)
       r 0 = E * F % (2 ^ 255 - 19) ∧ r 1 = G * H % (2 ^ 255 - 19) ∧
       r 2 = F * G % (2 ^ 255 - 19) ∧ r 3 = E * H % (2 ^ 255 - 19)) ∧
      UnchangedBut (viewRegs rd) s t ∧ t.status = { code := .ok, zf := s.status.zf }

/-- R117: for valid inputs the result is a valid point whose affine pair is the sum of R116, for every
pair of them. -/
def Obligations.PaddAddsValidPoints : Prop :=
  ∀ (rd ra rb : PView) (s : State), ValidPoint (s.readP ra) → ValidPoint (s.readP rb) →
    ∃ t, exec (.padd rd ra rb) s = .next t ∧ ValidPoint (t.readP rd) ∧
      affine (t.readP rd) = affineAdd (affine (s.readP ra)) (affine (s.readP rb))

/-- R118, R125: exchanging the operands of PADD gives identical registers, not only an equal class. -/
def Obligations.PaddCommutesExactly : Prop :=
  ∀ (rd ra rb : PView) (s : State), exec (.padd rd ra rb) s = exec (.padd rd rb ra) s

/-- R120: PDBL writes the four coordinates of the doubling formula; T is not read. -/
def Obligations.PdblFollowsTheDoublingFormula : Prop :=
  ∀ (rd ra : PView) (s : State),
    decode (BitVec.ofNat 32 (0x31 * 2 ^ 24 + 4 * rd.val * 2 ^ 19 + 4 * ra.val * 2 ^ 14)) =
      .ok (.pdbl rd ra) ∧
    ∃ t, exec (.pdbl rd ra) s = .next t ∧
      (let w := fun (k : Fin 4) => ((s.readW (viewReg ra k)).toNat : Int)
       let A := w 0 ^ 2
       let B := w 1 ^ 2
       let C := 2 * w 2 ^ 2
       let H := A + B
       let E := H - (w 0 + w 1) ^ 2
       let G := A - B
       let F := C + G
       let r := fun (k : Fin 4) => ((t.readW (viewReg rd k)).toNat : Int)
       r 0 = E * F % (2 ^ 255 - 19) ∧ r 1 = G * H % (2 ^ 255 - 19) ∧
       r 2 = F * G % (2 ^ 255 - 19) ∧ r 3 = E * H % (2 ^ 255 - 19)) ∧
      UnchangedBut (viewRegs rd) s t ∧ t.status = { code := .ok, zf := s.status.zf }

/-- R119: for a valid input the result is a valid point in the class of PointAdd(P, P). -/
def Obligations.PdblDoublesValidPoints : Prop :=
  ∀ (rd ra : PView) (s : State), ValidPoint (s.readP ra) →
    ∃ t, exec (.pdbl rd ra) s = .next t ∧ ValidPoint (t.readP rd) ∧
      PointEq (t.readP rd) (pointAdd (s.readP ra) (s.readP ra)) ∧
      affine (t.readP rd) = affineAdd (affine (s.readP ra)) (affine (s.readP ra))

/-! ## The fixed-base multiplier (44_fixed_base.md) -/

/-- R133: the digits are 33, each in [-127, 128], the last 0 or 1, and they sum to the scalar. -/
def Obligations.DigitsRecodeTheScalar : Prop :=
  ∀ s : Nat, s < 2 ^ 256 →
    (digits s).length = 33 ∧
    (∀ d ∈ digits s, -127 ≤ d ∧ d ≤ 128) ∧
    ((digits s)[32]? = some 0 ∨ (digits s)[32]? = some 1) ∧
    (digits s).foldr (fun d rest => d + 256 * rest) 0 = (s : Int)

/-- R130, R131: entry j of window w is the point (j + 1)·2^(8w)·B, stored as its affine pair with
Z = 1 and the pair's product as T. -/
def Obligations.TableHoldsConsecutiveMultiples : Prop :=
  ∀ w j, ((tbl w j).X, (tbl w j).Y) = affineMul ((j + 1) * 2 ^ (8 * w)) (BX, BY) ∧
    (tbl w j).Z = 1 ∧ (tbl w j).T = fmul (tbl w j).X (tbl w j).Y ∧ ValidPoint (tbl w j)

/-- R135: SMULB adds, from window 0 upward, the table's entry for a positive digit and the negated
entry for a negative one, starting from the identity and skipping zero digits. -/
def Obligations.SmulbAccumulatesTheTableEntries : Prop :=
  ∀ (rd : PView) (ra : WReg) (s : State),
    decode (BitVec.ofNat 32 (0x40 * 2 ^ 24 + 4 * rd.val * 2 ^ 19 + ra.val * 2 ^ 14)) =
      .ok (.smulb rd ra) ∧
    ∃ t, exec (.smulb rd ra) s = .next t ∧
      t.readP rd = (List.range 33).foldl (fun acc w =>
          let d := (digits (s.readW ra).toNat).getD w 0
          if d > 0 then pointAdd acc (tbl w (d - 1).toNat)
          else if d < 0 then pointAdd acc (pointNeg (tbl w (-d - 1).toNat))
          else acc) { X := 0, Y := 1, Z := 1, T := 0 } ∧
      UnchangedBut (viewRegs rd) s t ∧ t.status = { code := .ok, zf := s.status.zf }

/-- R134: for every scalar in [0, 2^256), not reduced and not clamped, the result of SMULB is a valid
extended point whose affine pair is the base point's added to itself that many times. -/
def Obligations.SmulbMultipliesTheBasePoint : Prop :=
  ∀ (rd : PView) (ra : WReg) (s : State),
    ∃ t, exec (.smulb rd ra) s = .next t ∧ ValidPoint (t.readP rd) ∧
      affine (t.readP rd) = affineMul (s.readW ra).toNat (BX, BY)

/-! ## The point codec (45_point_codec.md) -/

/-- R146: PCMP writes y + (x mod 2)·2^255 of the canonical affine pair, and 0 when Z ≡ 0. -/
def Obligations.PcmpEncodesTheAffinePair : Prop :=
  ∀ (rd : WReg) (ra : PView) (s : State),
    decode (BitVec.ofNat 32 (0x50 * 2 ^ 24 + rd.val * 2 ^ 19 + 4 * ra.val * 2 ^ 14)) =
      .ok (.pcmp rd ra) ∧
    ∃ t, exec (.pcmp rd ra) s = .next t ∧
      (∃ x y, x < 2 ^ 255 - 19 ∧ y < 2 ^ 255 - 19 ∧
        (t.readW rd).toNat = y + x % 2 * 2 ^ 255 ∧
        (if (s.readP ra).Z % (2 ^ 255 - 19) = 0 then x = 0 ∧ y = 0
         else x * (s.readP ra).Z % (2 ^ 255 - 19) = (s.readP ra).X % (2 ^ 255 - 19) ∧
           y * (s.readP ra).Z % (2 ^ 255 - 19) = (s.readP ra).Y % (2 ^ 255 - 19))) ∧
      UnchangedBut [rd] s t ∧ t.status = { code := .ok, zf := s.status.zf }

/-- R146: every representative of a class compresses to the same value; and only members of the class
do. -/
def Obligations.PcmpSeesExactlyTheClass : Prop :=
  ∀ (rd : WReg) (ra rb : PView) (s : State), ValidPoint (s.readP ra) → ValidPoint (s.readP rb) →
    ∃ t t', exec (.pcmp rd ra) s = .next t ∧ exec (.pcmp rd rb) s = .next t' ∧
      (t.readW rd = t'.readW rd ↔ PointEq (s.readP ra) (s.readP rb))

/-- R147 to R149: PDEC succeeds exactly on the buffers whose y is below P and is the y of a curve
point; it then writes that point with Z = 1, canonical coordinates, T = X·Y and the parity bit 255
asks for (X = 0 has one parity only, R150); otherwise it sets CODE to 1 and writes no register. -/
def Obligations.PdecDecodesExactlyTheCurvePoints : Prop :=
  ∀ (rd : PView) (ra : WReg) (s : State),
    decode (BitVec.ofNat 32 (0x51 * 2 ^ 24 + 4 * rd.val * 2 ^ 19 + ra.val * 2 ^ 14)) =
      .ok (.pdec rd ra) ∧
    ∃ t, exec (.pdec rd ra) s = .next t ∧
      let y := (s.readW ra).toNat % 2 ^ 255
      let sign := (s.readW ra).toNat / 2 ^ 255
      let q := t.readP rd
      ((y < 2 ^ 255 - 19 ∧ ∃ x, OnCurve x y) →
        q.X < 2 ^ 255 - 19 ∧ OnCurve q.X y ∧ (q.X % 2 = sign ∨ q.X = 0) ∧ q.Y = y ∧ q.Z = 1 ∧
        q.T = q.X * y % (2 ^ 255 - 19) ∧
        UnchangedBut (viewRegs rd) s t ∧ t.status = { code := .ok, zf := s.status.zf }) ∧
      (¬ (y < 2 ^ 255 - 19 ∧ ∃ x, OnCurve x y) →
        UnchangedBut [] s t ∧ t.status = { code := .invalidPoint, zf := s.status.zf })

/-- The round trip of R146 and R147: decoding what PCMP gave for any valid point succeeds and gives a
valid point PointEq to it. -/
def Obligations.PdecInvertsPcmp : Prop :=
  ∀ (rd : WReg) (pd pa : PView) (s : State), ValidPoint (s.readP pa) →
    ∃ t t', exec (.pcmp rd pa) s = .next t ∧ exec (.pdec pd rd) t = .next t' ∧
      t'.status.code = .ok ∧ ValidPoint (t'.readP pd) ∧ PointEq (t'.readP pd) (s.readP pa)

/-! ## The ladder (46_x25519_ladder.md) -/

/-- R163 to R165: XLAD writes the ladder's u-coordinate, for R163's step written out over the integers
modulo 2^255 - 19; the conditional swap has the value of a branch on each bit of the clamped scalar
from bit 254 down (R162); ZF says whether the result is 0. -/
def Obligations.XladEqualsTheBranchingLadder : Prop :=
  ∀ (rd ra rb : WReg) (s : State),
    decode (BitVec.ofNat 32 (0x60 * 2 ^ 24 + rd.val * 2 ^ 19 + ra.val * 2 ^ 14 + rb.val * 2 ^ 9)) =
      .ok (.xlad rd ra rb) ∧
    ∃ t, exec (.xlad rd ra rb) s = .next t ∧
      (let u : Int := ((s.readW rb).toNat % 2 ^ 255 : Nat)
       let q := branchingLadder (clamp (s.readW ra)).toNat u 255
         { x2 := 1, z2 := 0, x3 := u % (2 ^ 255 - 19), z3 := 1 }
       (t.readW rd).toNat < 2 ^ 255 - 19 ∧
       (if q.z2 % (2 ^ 255 - 19) = 0 then (t.readW rd).toNat = 0
        else ((t.readW rd).toNat : Int) * q.z2 % (2 ^ 255 - 19) = q.x2 % (2 ^ 255 - 19))) ∧
      UnchangedBut [rd] s t ∧
      t.status = { code := .ok, zf := decide (t.readW rd = 0) }

/-- R164 on the curve: where the masked u is the u-coordinate (1 + y)/(1 - y) of a point (x, y) of the
twisted Edwards curve, XLAD writes the u-coordinate of the clamped multiple of that point under
R116's law, 0 standing for the identity's. The map between the two curves is not in the spec, which
names it only (93_implementation_defined.md G15); R163 says that the ladder's result is fixed by the
mathematics. -/
def Obligations.XladMultipliesOnTheCurve : Prop :=
  ∀ (rd ra rb : WReg) (s : State) (x y : Nat), OnCurve x y →
    (((s.readW rb).toNat % 2 ^ 255 : Nat) : Int) * (1 - y) % (2 ^ 255 - 19) =
      (1 + y) % (2 ^ 255 - 19) →
    ∃ t, exec (.xlad rd ra rb) s = .next t ∧ (t.readW rd).toNat < 2 ^ 255 - 19 ∧
      let q := affineMul (clamp (s.readW ra)).toNat (x, y)
      if q.2 = 1 then (t.readW rd).toNat = 0
      else ((t.readW rd).toNat : Int) * (1 - q.2) % (2 ^ 255 - 19) = (1 + q.2) % (2 ^ 255 - 19)

/-- R160, R164: bit 255 of either source and the five clamped bits of the scalar have no effect, and a
u at or above P acts as its residue. -/
def Obligations.XladIgnoresTheMaskedBits : Prop :=
  ∀ (rd ra rb : WReg) (s s' : State),
    (∀ n, 3 ≤ n → n < 254 → (s.readW ra).getLsbD n = (s'.readW ra).getLsbD n) →
    (s.readW rb).toNat % 2 ^ 255 % (2 ^ 255 - 19) =
      (s'.readW rb).toNat % 2 ^ 255 % (2 ^ 255 - 19) →
    ∃ t t', exec (.xlad rd ra rb) s = .next t ∧ exec (.xlad rd ra rb) s' = .next t' ∧
      t.readW rd = t'.readW rd ∧ t.status = t'.status

/-- R164, R165: u = 0, in any of its forms, gives the result 0 and sets ZF, for every scalar. -/
def Obligations.XladOfZeroUSetsTheFlag : Prop :=
  ∀ (rd ra rb : WReg) (s : State),
    (s.readW rb).toNat % 2 ^ 255 % (2 ^ 255 - 19) = 0 →
    ∃ t, exec (.xlad rd ra rb) s = .next t ∧ t.readW rd = 0 ∧
      t.status = { code := .ok, zf := true }

/-- R169: for each low-order u, XLAD gives 0 with ZF = 1 for every scalar. -/
def Obligations.XladOfLowOrderUIsZero : Prop :=
  ∀ (rd ra rb : WReg) (s : State), (s.readW rb).toNat % 2 ^ 255 ∈ lowOrderU →
    ∃ t, exec (.xlad rd ra rb) s = .next t ∧ t.readW rd = 0 ∧
      t.status = { code := .ok, zf := true }

/-- R169: Diffie-Hellman symmetry. Two cores hold the base point's u = 9 and a secret each; when each
runs XLAD on the other's result, both get the same value. -/
def Obligations.XladAgreesOnASharedValue : Prop :=
  ∀ (rd ra rb : WReg) (s s' t t' : State), ra ≠ rb →
    s.readW rb = 9 → s'.readW rb = 9 →
    exec (.xlad rd ra rb) s = .next t → exec (.xlad rd ra rb) s' = .next t' →
    ∃ z z', exec (.xlad rd ra rb) (s.writeW rb (t'.readW rd)) = .next z ∧
      exec (.xlad rd ra rb) (s'.writeW rb (t.readW rd)) = .next z' ∧
      z.readW rd = z'.readW rd ∧ z.status.zf = z'.status.zf

/-! ## The host port (20_memory.md) -/

/-- A register write replaces word k of w[i], keeps the other 224 bits, every other register and
STATUS, and is the oldest event consumed (R42). -/
def Obligations.RegisterWritesReplaceOneWord : Prop :=
  ∀ (s : State) (i : WReg) (k : Fin 8) (v : BusWord) (rest : List HostEvent),
    s.port = .memWrite (0x400 + 32 * i.val + 4 * k.val) 4 v :: rest →
    ∃ t, step s = .next t ∧
      (∀ n, n < 256 → (t.readW i).getLsbD n =
        if 32 * k.val ≤ n ∧ n < 32 * k.val + 32 then v.getLsbD (n - 32 * k.val)
        else (s.readW i).getLsbD n) ∧
      (∀ r, r ≠ i → t.readW r = s.readW r) ∧
      t.status = s.status ∧ t.port = rest ∧ t.replies = s.replies ∧ t.resets = s.resets

/-- R42, R48: a register read returns word k of w[i], a status read returns STATUS, and neither has any
other effect. -/
def Obligations.ReadsReturnTheirWordAndChangeNothing : Prop :=
  (∀ (s : State) (i : WReg) (k : Fin 8) (rest : List HostEvent),
    s.port = .memRead (0x400 + 32 * i.val + 4 * k.val) 4 :: rest →
    ∃ v : BusWord, step s = .next { s with port := rest, replies := s.replies ++ [v] } ∧
      ∀ n, n < 32 → v.getLsbD n = (s.readW i).getLsbD (32 * k.val + n)) ∧
  (∀ (s : State) (rest : List HostEvent), s.port = .memRead 0x004 4 :: rest →
    step s = .next { s with port := rest, replies := s.replies ++ [statusWord s.status] })

/-- R27, R28: CODE stands in bits 3:0 with the values 0 to 3 only, ZF in bit 4, and bits 31:5 read 0. -/
def Obligations.StatusWordHasItsLayout : Prop :=
  ∀ st : Status,
    (statusWord st).toNat % 16 = (match st.code with
      | .ok => 0 | .invalidPoint => 1 | .illegalCommand => 2 | .noSquareRoot => 3) ∧
    (statusWord st).getLsbD 4 = st.zf ∧ ∀ n, 5 ≤ n → (statusWord st).getLsbD n = false

/-- R43: an access that is none of the four transactions is refused, and no other step is. -/
def Obligations.OnlyOtherAccessesAreRefused : Prop :=
  ∀ (s : State) (e : HostEvent) (rest : List HostEvent), s.port = e :: rest →
    ((∃ r, step s = .refused r) ↔
      match e with
      | .reset => False
      | .memRead offset size => ¬ (size = 4 ∧ (offset = 0x004 ∨
          ∃ (i : WReg) (k : Fin 8), offset = 0x400 + 32 * i.val + 4 * k.val))
      | .memWrite offset size _ => ¬ (size = 4 ∧ (offset = 0x000 ∨
          ∃ (i : WReg) (k : Fin 8), offset = 0x400 + 32 * i.val + 4 * k.val)))

/-- R45: byte k of the buffer of w[i] is at offset 0x400 + 32·i + k; a register write changes the four
bytes of its word, to the bytes of the value lowest first, and no other byte of the window. -/
def Obligations.WindowBytesAreLittleEndian : Prop :=
  (∀ (s : State) (i : WReg) (k : Nat), k < 32 →
    windowByte s (0x400 + 32 * i.val + k) = some ((s.readW i).extractLsb' (8 * k) 8)) ∧
  (∀ (s : State) (i : WReg) (k : Fin 8) (v : BusWord) (rest : List HostEvent),
    s.port = .memWrite (0x400 + 32 * i.val + 4 * k.val) 4 v :: rest →
    ∃ t, step s = .next t ∧ ∀ a,
      windowByte t a =
        if 0x400 + 32 * i.val + 4 * k.val ≤ a ∧ a < 0x400 + 32 * i.val + 4 * k.val + 4 then
          some (v.extractLsb' (8 * (a - (0x400 + 32 * i.val + 4 * k.val))) 8)
        else windowByte s a)

/-- R49: a step accepts exactly the oldest event, and what a read returned earlier stays. The lists and
that an external reset leaves them as they are, but for its own event, are the model's choice (log 5);
R49 speaks of the host's transactions. -/
def Obligations.StepsConsumeEventsInOrder : Prop :=
  ∀ (s t : State) (e : HostEvent) (rest : List HostEvent),
    s.port = e :: rest → step s = .next t →
    t.port = rest ∧ ∃ new, t.replies = s.replies ++ new

/-! ## Reset (10_state.md R36, 70_reset_and_hazards.md R195, R196) -/

/-- R36, R196: whatever the registers hold after it, a reset leaves STATUS 0; an external reset arriving
at the port always completes, with STATUS 0. That no event waits and nothing has been read right
after reset is the model's choice (log 5). -/
def Obligations.ResetClearsStatus : Prop :=
  (∀ contents : Vector Word 32,
    statusWord (State.afterReset contents).status = 0 ∧
    (∀ r : WReg, (State.afterReset contents).readW r = contents[r.val]) ∧
    (State.afterReset contents).port = [] ∧ (State.afterReset contents).replies = []) ∧
  (∀ (s : State) (rest : List HostEvent), s.port = .reset :: rest →
    ∃ t, step s = .next t ∧ statusWord t.status = 0 ∧ t.port = rest ∧ t.replies = s.replies)

/-! ## Rules about every command -/

/-- R24, R200: every command completes, changes no register but its destinations, and leaves the host's
side of the port alone. -/
def Obligations.CommandsWriteOnlyTheirDestinations : Prop :=
  ∀ (i : Instr) (s : State), ∃ t, exec i s = .next t ∧ UnchangedBut i.destinations s t

/-- R176, R182: a command that ends with a non-zero code has written nothing but the code; only PDEC
ends with InvalidPoint, only FSQRT with NoSquareRoot, and no legal command with IllegalCommand. -/
def Obligations.FailedCommandsWriteOnlyTheCode : Prop :=
  ∀ (i : Instr) (s t : State), exec i s = .next t → t.status.code ≠ .ok →
    t = { s with status := { code := t.status.code, zf := s.status.zf } } ∧
    ((t.status.code = .invalidPoint ∧ ∃ rd ra, i = .pdec rd ra) ∨
      (t.status.code = .noSquareRoot ∧ ∃ rd ra rb, i = .fsqrt rd ra rb))

/-- R29: ZF is changed by no step but the issue of an XLAD and an external reset. -/
def Obligations.OnlyXladWritesZf : Prop :=
  ∀ s t : State, step s = .next t → t.status.zf ≠ s.status.zf →
    ∃ e rest, s.port = e :: rest ∧
      (e = .reset ∨ ∃ c rd ra rb, e = issue c ∧ decode c = .ok (.xlad rd ra rb))

/-- R178: "the next command executes normally whatever the code was": what a command does to every
other part of the state does not depend on STATUS. -/
def Obligations.PastStatusDoesNotMatter : Prop :=
  ∀ (i : Instr) (s : State) (st : Status), ∃ t t',
    exec i s = .next t ∧ exec i { s with status := st } = .next t' ∧
    (∀ r, t.readW r = t'.readW r) ∧ t.status.code = t'.status.code ∧
    t'.status.zf = (if i.writesZf then t.status.zf else st.zf) ∧
    t.port = t'.port ∧ t.replies = t'.replies

/-- R24, R92, R125, R169: the result of a command is a function of its source registers alone; PDBL and
PCMP do not even read T. -/
def Obligations.ResultsDependOnSourcesOnly : Prop :=
  ∀ (i : Instr) (s s' : State), (∀ r ∈ i.sources, s.readW r = s'.readW r) →
    ∃ t t', exec i s = .next t ∧ exec i s' = .next t' ∧
      t.status.code = t'.status.code ∧
      (t.status.code = .ok → ∀ r ∈ i.destinations, t.readW r = t'.readW r) ∧
      (i.writesZf → t.status.zf = t'.status.zf)

/-- R80: a source at or above P behaves exactly as its residue, in every command that computes with
field elements. -/
def Obligations.FieldSourcesActAsResidues : Prop :=
  ∀ (i : Instr) (s s' : State), i.readsFieldElements →
    (∀ r ∈ i.sources,
      (s.readW r).toNat % (2 ^ 255 - 19) = (s'.readW r).toNat % (2 ^ 255 - 19)) →
    ∃ t t', exec i s = .next t ∧ exec i s' = .next t' ∧
      t.status.code = t'.status.code ∧
      (t.status.code = .ok → ∀ r ∈ i.destinations, t.readW r = t'.readW r)

/-- R80, R118, R164: every register a successful command writes is canonical, but for CLAMP (which does
not reduce) and PCMP (whose bit 255 is the sign). -/
def Obligations.ResultsAreCanonical : Prop :=
  ∀ (i : Instr) (s t : State), exec i s = .next t → t.status.code = .ok →
    (∀ rd ra, i ≠ .clamp rd ra) → (∀ rd ra, i ≠ .pcmp rd ra) →
    ∀ r ∈ i.destinations, (t.readW r).toNat < 2 ^ 255 - 19

/-! ## Runs -/

/-- R175, R178, D7: while the host sends only the four transactions, no run of any length stops: no
word, operand or data makes the core fault or refuse. -/
def Obligations.LegalHostsNeverStopTheCore : Prop :=
  ∀ s : State, LegalPort s → NeverStops s

/-- R25: a register keeps its value through every step while nothing that waits can write it. -/
def Obligations.UnwrittenRegistersAreRetained : Prop :=
  ∀ (r : WReg) (v : Word) (s t : State), Retained r v s → step s = .next t → Retained r v t

/-- R121: under point traffic every view stays a valid point. -/
def Obligations.PointTrafficKeepsPointsValid : Prop :=
  ∀ s t : State, PointTraffic s → step s = .next t → PointTraffic t

/-- What holds after a reset, whatever it leaves in the registers. Retention, through a run of any
length: each register holds "some 256-bit value, the same at every read until first written" (R36)
while nothing the host sends can write it. Point traffic cannot hold at once, since the registers need
not hold points (in State.reset, log 1, they are all 0): it begins when the host has made every view
valid (R199), here by one SMULB into each, of any scalars, whatever the registers held, also when an
external reset comes first. -/
def Obligations.InvariantsHoldAfterReset : Prop :=
  (∀ (contents : Vector Word 32) (port : List HostEvent) (r : WReg) (n : Nat),
    (∀ e ∈ port, e.legal = true) → (∀ e ∈ port, e.mayWrite r = false) →
    ∃ t, Sys2Proof.core.run n { State.afterReset contents with port := port } = .next t ∧
      t.readW r = contents[r.val]) ∧
  (∀ (contents : Vector Word 32) (ra : PView → WReg) (rest : List HostEvent),
    (∀ e ∈ rest, e.keepsPoints = true) →
    ∃ t, Sys2Proof.core.run 8
        { State.afterReset contents with port := eightSmulbs ra ++ rest } = .next t ∧
      PointTraffic t ∧ t.port = rest) ∧
  (∀ (s : State) (ra : PView → WReg) (rest : List HostEvent),
    s.port = .reset :: (eightSmulbs ra ++ rest) → (∀ e ∈ rest, e.keepsPoints = true) →
    ∃ t, Sys2Proof.core.run 9 s = .next t ∧ PointTraffic t ∧ t.port = rest)
end

