-- ==== Sys2Proof/Laws/Clamp.lean ====
section
/-! SUPPORT. The bits of a clamped scalar (42_bytes_clamp.md R102). -/

namespace Sys2Proof.Machine

set_option Elab.async false

/-- The two constants of `Clamp`, bit by bit. -/
theorem clamp_constants : ∀ n : Fin 256,
    (BitVec.ofNat 256 (2 ^ 255 - 8)).getLsbD n = decide (3 ≤ n.val ∧ n.val ≠ 255) ∧
    (BitVec.ofNat 256 (2 ^ 254)).getLsbD n = decide (n.val = 254) := by
  decide +kernel

theorem getLsbD_clamp (v : Word) (n : Nat) (hn : n < 256) : (clamp v).getLsbD n =
    (v.getLsbD n && decide (3 ≤ n ∧ n ≠ 255) || decide (n = 254)) := by
  obtain ⟨h1, h2⟩ := clamp_constants ⟨n, hn⟩
  rw [clamp, BitVec.getLsbD_or, BitVec.getLsbD_and, h1, h2]

theorem clamp_lt (v : Word) : (clamp v).toNat < 2 ^ 255 := by
  have h := getLsbD_clamp v 255 (by omega)
  rw [BitVec.getLsbD, Nat.testBit_eq_decide_div_mod_eq] at h
  simp only [ne_eq, not_true_eq_false, and_false, decide_false, Bool.and_false, Bool.false_or,
    decide_eq_decide] at h
  have := (clamp v).isLt
  have : (clamp v).toNat / 2 ^ 255 % 2 ≠ 1 := by simpa using h
  omega

theorem clamp_mod_eight (v : Word) : (clamp v).toNat % 8 = 0 := by
  have h0 := getLsbD_clamp v 0 (by omega)
  have h1 := getLsbD_clamp v 1 (by omega)
  have h2 := getLsbD_clamp v 2 (by omega)
  simp [BitVec.getLsbD, Nat.testBit_eq_decide_div_mod_eq] at h0 h1 h2
  omega

end Sys2Proof.Machine
end

