-- ==== Sys2Proof/Laws/Prime.lean ====
section
/-! SUPPORT. The field modulus P = 2^255 - 19 is prime (93_implementation_defined.md G11), by Lucas's
test along the factors of p - 1. -/

namespace Sys2Proof.Laws

set_option Elab.async false

/-- `x^e mod m` by squaring and multiplying, for an exponent of at most n bits. -/
def modPow (m x e : Nat) : Nat → Nat
  | 0 => 1 % m
  | n + 1 =>
    let r := modPow m x (e / 2) n
    let r2 := r * r % m
    if e % 2 = 1 then r2 * x % m else r2

theorem modPow_eq (m x : Nat) : ∀ n e, e < 2 ^ n → modPow m x e n = x ^ e % m
  | 0, e, he => by
    have : e = 0 := by simpa using he
    simp [modPow, this]
  | n + 1, e, he => by
    have ih := modPow_eq m x n (e / 2) (by rw [pow_succ] at he; omega)
    have sq : x ^ (e / 2) % m * (x ^ (e / 2) % m) % m = x ^ (2 * (e / 2)) % m := by
      rw [← Nat.mul_mod, ← pow_add, two_mul]
    by_cases h : e % 2 = 1
    · have he2 : e = 2 * (e / 2) + 1 := by omega
      simp only [modPow, ih, h, if_true, sq]
      rw [Nat.mod_mul_mod, ← pow_succ, ← he2]
    · have he2 : e = 2 * (e / 2) := by omega
      simp only [modPow, ih, h, if_false, sq]
      rw [← he2]

/-- The computation of Lucas's test for `p` with the witness `a`: the primes `qs`, with repetition,
multiply to p - 1, and a has order p - 1. -/
def lucasTest (p a n : Nat) (qs : List Nat) : Bool :=
  qs.prod == p - 1 && decide (p - 1 < 2 ^ n) && modPow p a (p - 1) n == 1 % p &&
    qs.all fun q => modPow p a ((p - 1) / q) n != 1 % p

theorem prime_of_lucasTest {p a n : Nat} {qs : List Nat} (hq : ∀ q ∈ qs, q.Prime)
    (h : lucasTest p a n qs = true) : p.Prime := by
  simp only [lucasTest, Bool.and_eq_true, beq_iff_eq, decide_eq_true_eq, List.all_eq_true,
    bne_iff_ne, ne_eq] at h
  obtain ⟨⟨⟨hprod, hn⟩, h1⟩, hne⟩ := h
  have cast_eq : ∀ e, ((a : ZMod p) ^ e = 1 ↔ a ^ e % p = 1 % p) := by
    intro e
    rw [← Nat.cast_one, ← Nat.cast_pow, ZMod.natCast_eq_natCast_iff]
    rfl
  refine lucas_primality p (a : ZMod p) ?_ ?_
  · rw [cast_eq, ← modPow_eq p a n _ hn, h1]
  · intro q hqp hdvd
    rw [ne_eq, cast_eq, ← modPow_eq p a n _ (lt_of_le_of_lt (Nat.div_le_self _ _) hn)]
    apply hne
    rw [← hprod] at hdvd
    obtain ⟨r, hr, hqr⟩ := (Prime.dvd_prod_iff hqp.prime).1 hdvd
    rwa [(Nat.prime_dvd_prime_iff_eq hqp (hq r hr)).1 hqr]

theorem prime_31757755568855353 : Nat.Prime 31757755568855353 :=
  prime_of_lucasTest (a := 10) (n := 55) (qs := [2, 2, 2, 3, 31, 107, 223, 4153, 430751])
    (by norm_num) (by decide +kernel)

theorem prime_2773320623 : Nat.Prime 2773320623 :=
  prime_of_lucasTest (a := 5) (n := 32) (qs := [2, 2437, 569003]) (by norm_num) (by decide +kernel)

theorem prime_72106336199 : Nat.Prime 72106336199 :=
  prime_of_lucasTest (a := 7) (n := 37) (qs := [2, 13, 2773320623])
    (by simp [prime_2773320623]; norm_num) (by decide +kernel)

theorem prime_1919519569386763 : Nat.Prime 1919519569386763 :=
  prime_of_lucasTest (a := 2) (n := 51) (qs := [2, 3, 7, 19, 47, 47, 127, 8574133])
    (by norm_num) (by decide +kernel)

theorem prime_75445702479781427272750846543864801 :
    Nat.Prime 75445702479781427272750846543864801 :=
  prime_of_lucasTest (a := 7) (n := 117)
    (qs := [2, 2, 2, 2, 2, 3, 3, 5, 5, 75707, 72106336199, 1919519569386763])
    (by simp [prime_72106336199, prime_1919519569386763]; norm_num) (by decide +kernel)

theorem prime_cofactor :
    Nat.Prime 74058212732561358302231226437062788676166966415465897661863160754340907 :=
  prime_of_lucasTest (a := 2) (n := 237)
    (qs := [2, 3, 353, 57467, 132049, 1923133, 31757755568855353,
      75445702479781427272750846543864801])
    (by simp [prime_31757755568855353, prime_75445702479781427272750846543864801]; norm_num)
    (by decide +kernel)

/-- P = 2^255 - 19 is prime. -/
theorem P_prime : Nat.Prime Sys2Proof.Machine.P :=
  prime_of_lucasTest (a := 2) (n := 255)
    (qs := [2, 2, 3, 65147,
      74058212732561358302231226437062788676166966415465897661863160754340907])
    (by simp [prime_cofactor]; norm_num) (by decide +kernel)

end Sys2Proof.Laws
end

