-- ==== Sys2Proof/Laws/Field.lean ====
section
/-! SUPPORT. The field helpers as operations of ZMod P, and the bounds of their results. -/

namespace Sys2Proof.Machine

set_option Elab.async false

theorem P_pos : 0 < P := Laws.P_prime.pos

/-- For a `haveI`, where a proof needs that ZMod P is a field. -/
theorem fact_P_prime : Fact P.Prime := ⟨Laws.P_prime⟩

theorem P_lt : P < 2 ^ 255 := by decide +kernel
theorem P_lt_word : P < 2 ^ 256 := by decide +kernel

/-! ## Every result is canonical (00_scope.md R15) -/

theorem fred_lt (a : Nat) : fred a < P := Nat.mod_lt _ P_pos
theorem fadd_lt (a b : Nat) : fadd a b < P := Nat.mod_lt _ P_pos
theorem fsub_lt (a b : Nat) : fsub a b < P := Nat.mod_lt _ P_pos
theorem fmul_lt (a b : Nat) : fmul a b < P := Nat.mod_lt _ P_pos
theorem fsq_lt (a : Nat) : fsq a < P := Nat.mod_lt _ P_pos
theorem fpsq_lt (x k f : Nat) : fpsq x k f < P := fmul_lt _ _

theorem fpow_lt (x e : Nat) : ∀ n, fpow x e n < P
  | 0 => Laws.P_prime.one_lt
  | n + 1 => by
    simp only [fpow]
    split
    · exact fmul_lt _ _
    · exact fsq_lt _

theorem fsqx_lt (x : Nat) : fsqx x < P := fpow_lt _ _ _
theorem finv_lt (x : Nat) : finv x < P := fpow_lt _ _ _

theorem SQRTM1_lt : SQRTM1 < P := by decide +kernel

theorem sqrtRatio_lt {u v x : Nat} (h : sqrtRatio u v = some x) : x < P := by
  simp only [sqrtRatio] at h
  split at h
  · cases h; exact fmul_lt _ _
  · split at h
    · cases h; exact fmul_lt _ _
    · cases h

/-! ## The helpers in ZMod P -/

@[simp] theorem cast_mod_P (a : Nat) : ((a % P : Nat) : ZMod P) = a := ZMod.natCast_mod a P
@[simp] theorem cast_P : ((P : Nat) : ZMod P) = 0 := ZMod.natCast_self P
@[simp] theorem cast_fred (a : Nat) : ((fred a : Nat) : ZMod P) = a := cast_mod_P a
@[simp] theorem cast_fadd (a b : Nat) : ((fadd a b : Nat) : ZMod P) = a + b := by simp [fadd]
@[simp] theorem cast_fmul (a b : Nat) : ((fmul a b : Nat) : ZMod P) = a * b := by simp [fmul]
@[simp] theorem cast_fsq (a : Nat) : ((fsq a : Nat) : ZMod P) = a ^ 2 := by simp [fsq, sq]
@[simp] theorem cast_fsub (a b : Nat) : ((fsub a b : Nat) : ZMod P) = a - b := by
  simp only [fsub, cast_mod_P, Nat.cast_add, Nat.cast_sub (Nat.mod_lt b P_pos).le, cast_P]
  ring

/-- Two numbers below P are equal when they are equal in ZMod P. -/
theorem eq_of_cast_eq {a b : Nat} (ha : a < P) (hb : b < P) (h : (a : ZMod P) = b) : a = b := by
  have := (ZMod.natCast_eq_natCast_iff a b P).1 h
  rwa [Nat.ModEq, Nat.mod_eq_of_lt ha, Nat.mod_eq_of_lt hb] at this

theorem cast_eq_iff {a b : Nat} : (a : ZMod P) = b ↔ a % P = b % P :=
  ZMod.natCast_eq_natCast_iff a b P

theorem cast_eq_zero_iff {a : Nat} : (a : ZMod P) = 0 ↔ a % P = 0 := by
  rw [← Nat.cast_zero, cast_eq_iff, Nat.zero_mod]

/-- `fsub` is the remainder of the integer difference (00_scope.md R10, R15). -/
theorem fsub_eq_int (a b : Nat) : (fsub a b : Int) = ((a : Int) - b) % P := by
  have hb := Nat.mod_lt b P_pos
  have e : ((a + (P - b % P) : Nat) : Int) = (a : Int) - b + P * (1 + (b / P : Nat)) := by
    have h2 : (P : Int) * (b / P : Nat) + (b % P : Nat) = b := by exact_mod_cast Nat.div_add_mod b P
    rw [Nat.cast_add, Nat.cast_sub hb.le]
    linear_combination -h2
  rw [fsub, Int.natCast_mod, e, Int.add_mul_emod_self_left]

theorem fpow_eq (x : Nat) : ∀ n e, e < 2 ^ n → fpow x e n = x ^ e % P := by
  intro n
  induction n with
  | zero =>
    intro e he
    have : e = 0 := by simpa using he
    simp [fpow, this, Nat.mod_eq_of_lt Laws.P_prime.one_lt]
  | succ n ih =>
    intro e he
    have ih' := ih (e / 2) (by rw [pow_succ] at he; omega)
    apply eq_of_cast_eq (fpow_lt x e _) (Nat.mod_lt _ P_pos)
    by_cases h : e % 2 = 1
    · have he2 : e = 2 * (e / 2) + 1 := by omega
      simp only [fpow, ih', h, if_true, cast_fmul, cast_fsq, cast_mod_P, Nat.cast_pow]
      conv_rhs => rw [he2]
      ring
    · have he2 : e = 2 * (e / 2) := by omega
      simp only [fpow, ih', h, if_false, cast_fsq, cast_mod_P, Nat.cast_pow]
      conv_rhs => rw [he2]
      ring

/-- `fsqx(x)` is the power (41_field.md R88). -/
theorem fsqx_eq_pow (x : Nat) : fsqx x = (x % P) ^ (2 ^ 252 - 3) % P :=
  fpow_eq _ _ _ (by decide +kernel)

@[simp] theorem cast_fsqx (x : Nat) : ((fsqx x : Nat) : ZMod P) = (x : ZMod P) ^ (2 ^ 252 - 3) := by
  rw [fsqx_eq_pow, cast_mod_P, Nat.cast_pow, cast_mod_P]

/-- `finv(x)` is the power P - 2 (41_field.md R87). -/
theorem finv_eq_pow (x : Nat) : finv x = (x % P) ^ (P - 2) % P :=
  fpow_eq _ _ _ (by decide +kernel)

/-- k squarings are the power 2^k. -/
@[simp] theorem cast_fsqTimes (k : Nat) :
    ∀ r : Nat, ((fsqTimes k r : Nat) : ZMod P) = (r : ZMod P) ^ 2 ^ k := by
  induction k with
  | zero => intro r; simp [fsqTimes]
  | succ k ih => intro r; rw [fsqTimes, ih, cast_fsq, ← pow_mul, pow_succ, mul_comm]

@[simp] theorem cast_fpsq (x k f : Nat) :
    ((fpsq x k f : Nat) : ZMod P) = (x : ZMod P) ^ 2 ^ k * f := by
  simp [fpsq]

end Sys2Proof.Machine
end

