-- ==== Sys2Proof/Laws/Curve.lean ====
section
/-! SUPPORT. The affine group of the curve -x² + y² = 1 + d·x²·y² over ZMod P (43_edwards_group.md R116):
no denominator vanishes, sums stay on the curve, and the law is an abelian group's
(93_implementation_defined.md G5, G12, G13). -/

namespace Sys2Proof.Laws

set_option Elab.async false

open Sys2Proof.Machine

/-- The field of the curve. -/
abbrev K := ZMod P

/-- d in the field. -/
abbrev dK : K := (D : K)

/-- (x, y) is on the curve. -/
def CurveK (a : K × K) : Prop := -a.1 ^ 2 + a.2 ^ 2 = 1 + dK * a.1 ^ 2 * a.2 ^ 2

/-- The affine sum of R116. -/
def addK [Fact P.Prime] (a b : K × K) : K × K :=
  ((a.1 * b.2 + b.1 * a.2) / (1 + dK * a.1 * b.1 * a.2 * b.2),
   (a.2 * b.2 + a.1 * b.1) / (1 - dK * a.1 * b.1 * a.2 * b.2))

theorem SQRTM1_sq : (SQRTM1 : K) ^ 2 = -1 := by
  have h : fsq SQRTM1 = P - 1 := by decide +kernel
  rw [← cast_fsq, h, Nat.cast_sub P_pos, cast_P]
  simp

theorem two_ne_zero_K [Fact P.Prime] : (2 : K) ≠ 0 := by
  have : ((2 : Nat) : K) ≠ 0 := by rw [ne_eq, cast_eq_zero_iff]; decide +kernel
  exact_mod_cast this

theorem D_ne_zero : dK ≠ 0 := by rw [ne_eq, cast_eq_zero_iff]; decide +kernel

/-- d is not a square modulo P (43_edwards_group.md R113), by Euler's criterion. -/
theorem D_not_square : ¬ IsSquare dK := by
  have := fact_P_prime
  rw [ZMod.euler_criterion P D_ne_zero]
  have h : fpow D (P / 2) 255 = P - 1 := by decide +kernel
  rw [fpow_eq _ _ _ (by decide +kernel)] at h
  have h2 : dK ^ (P / 2) = ((P - 1 : Nat) : K) := by rw [← h, cast_mod_P, Nat.cast_pow]
  rw [h2, Nat.cast_sub P_pos, cast_P]
  intro e
  apply two_ne_zero_K
  linear_combination -e

section

variable [Fact P.Prime]

/-- The factor of d that would make it a square. -/
theorem no_root {r s : K} (hs : s ≠ 0) (h : r ^ 2 = dK * s ^ 2) : False :=
  D_not_square ⟨r / s, by field_simp; exact h.symm⟩

/-- -1/d is not a square: d·y² + 1 is never 0 (45_point_codec.md R149). -/
theorem dysq_ne (y : K) : dK * y ^ 2 + 1 ≠ 0 := by
  intro h
  have hy : y ≠ 0 := by rintro rfl; simp at h
  exact no_root (r := (SQRTM1 : K)) hy (by rw [SQRTM1_sq]; linear_combination -h)

/-- 1 - d·x² is never 0. -/
theorem dxsq_ne (x : K) : 1 - dK * x ^ 2 ≠ 0 := by
  intro h
  have hx : x ≠ 0 := by rintro rfl; simp at h
  exact no_root (r := 1) hx (by linear_combination h)

/-- The product in the denominators is never ±1 for curve points (43_edwards_group.md R116). -/
theorem denom_sq_ne {a b : K × K} (ha : CurveK a) (hb : CurveK b) :
    (dK * a.1 * b.1 * a.2 * b.2) ^ 2 ≠ 1 := by
  obtain ⟨x1, y1⟩ := a
  obtain ⟨x2, y2⟩ := b
  simp only [CurveK] at ha hb
  simp only
  intro h
  have hne : dK * x1 * x2 * y1 * y2 ≠ 0 := by intro e; rw [e] at h; simp at h
  have hx1 : x1 ≠ 0 := by rintro rfl; simp at hne
  have hy1 : y1 ≠ 0 := by rintro rfl; simp at hne
  have hx2 : x2 ≠ 0 := by rintro rfl; simp at hne
  have hi := SQRTM1_sq
  generalize (SQRTM1 : K) = i at hi
  -- (i·x1 ± e·y1)² = d·(x1·y1)²·(i·x2 ± y2)² with e the product
  have key : ∀ σ : K, σ ^ 2 = 1 → i * x2 + σ * y2 = 0 := by
    intro σ hσ
    by_contra hne2
    refine no_root (r := i * x1 + σ * (dK * x1 * x2 * y1 * y2) * y1)
      (s := x1 * y1 * (i * x2 + σ * y2)) (mul_ne_zero (mul_ne_zero hx1 hy1) hne2) ?_
    linear_combination (x1 ^ 2 - dK * x1 ^ 2 * y1 ^ 2 * x2 ^ 2) * hi +
      (dK ^ 2 * x1 ^ 2 * x2 ^ 2 * y1 ^ 4 * y2 ^ 2 - dK * x1 ^ 2 * y1 ^ 2 * y2 ^ 2) * hσ + ha -
      dK * x1 ^ 2 * y1 ^ 2 * hb + (y1 ^ 2 - 1) * h
  have h1 := key 1 (by ring)
  have h2 := key (-1) (by ring)
  have : 2 * i * x2 = 0 := by linear_combination h1 + h2
  have hine : i ≠ 0 := by rintro rfl; simp at hi
  exact mul_ne_zero (mul_ne_zero two_ne_zero_K hine) hx2 this

theorem denom_add_ne {a b : K × K} (ha : CurveK a) (hb : CurveK b) :
    1 + dK * a.1 * b.1 * a.2 * b.2 ≠ 0 := by
  intro h
  apply denom_sq_ne ha hb
  linear_combination (dK * a.1 * b.1 * a.2 * b.2 - 1) * h

theorem denom_sub_ne {a b : K × K} (ha : CurveK a) (hb : CurveK b) :
    1 - dK * a.1 * b.1 * a.2 * b.2 ≠ 0 := by
  intro h
  apply denom_sq_ne ha hb
  linear_combination (-dK * a.1 * b.1 * a.2 * b.2 - 1) * h

/-- The curve equation of a pair of quotients, cleared of its denominators. -/
theorem curve_of_quotients {d n m p q : K} (hp : p ≠ 0) (hq : q ≠ 0)
    (h : -n ^ 2 * q ^ 2 + m ^ 2 * p ^ 2 = p ^ 2 * q ^ 2 + d * n ^ 2 * m ^ 2) :
    -(n / p) ^ 2 + (m / q) ^ 2 = 1 + d * (n / p) ^ 2 * (m / q) ^ 2 := by
  field_simp
  linear_combination h

/-- Sums stay on the curve. -/
theorem addK_on_curve {a b : K × K} (ha : CurveK a) (hb : CurveK b) : CurveK (addK a b) := by
  have hp := denom_add_ne ha hb
  have hm := denom_sub_ne ha hb
  obtain ⟨x1, y1⟩ := a
  obtain ⟨x2, y2⟩ := b
  simp only [CurveK, addK] at *
  refine curve_of_quotients hp hm ?_
  generalize dK = d at *
  linear_combination
    (d^3*x1^2*y1^2*x2^4*y2^4 + (-1)*d^2*x1^2*x2^4*y2^4 + d^2*y1^2*x2^4*y2^4 +
        (-1)*d^2*x2^4*y2^4 + (-1)*d*x1^2*x2^4*y2^2 + d*x1^2*x2^2*y2^4 + d*y1^2*x2^4*y2^2 +
        (-1)*d*y1^2*x2^2*y2^4 + (-2)*d*x2^4*y2^4 + (-2)*d*x2^2*y2^2 + (-2)*x2^4*y2^2 + x2^4 +
        2*x2^2*y2^4 + (-4)*x2^2*y2^2 + y2^4) * ha
      + (d*x1^4*x2^2*y2^2 + 2*d*x1^2*x2^2*y2^2 + d*y1^4*x2^2*y2^2 + (-2)*d*y1^2*x2^2*y2^2 +
        d*x2^2*y2^2 + 2*x1^2*x2^2*y2^2 + (-1)*x1^2*x2^2 + x1^2*y2^2 + (-2)*y1^2*x2^2*y2^2 +
        y1^2*x2^2 + (-1)*y1^2*y2^2 + 2*x2^2*y2^2 + (-1)*x2^2 + y2^2 + 1) * hb

theorem addK_comm (a b : K × K) : addK a b = addK b a := by
  simp only [addK, Prod.mk.injEq]
  constructor <;> ring_nf

/-- The neutral element (43_edwards_group.md R116). -/
theorem addK_zero (a : K × K) : addK a (0, 1) = a := by simp [addK]

theorem zero_addK (a : K × K) : addK (0, 1) a = a := by rw [addK_comm, addK_zero]

/-- The negative of (x, y) is (-x, y) (43_edwards_group.md R116; 90_conflicts.md C2). -/
theorem addK_neg {a : K × K} (ha : CurveK a) : addK a (-a.1, a.2) = (0, 1) := by
  have hm : 1 + dK * a.1 ^ 2 * a.2 ^ 2 ≠ 0 := by
    have := denom_add_ne ha ha
    intro h; apply this; linear_combination h
  simp only [addK, Prod.mk.injEq]
  constructor
  · rw [div_eq_zero_iff]; left; ring
  · rw [div_eq_one_iff_eq (by intro h; apply hm; linear_combination h)]
    rw [CurveK] at ha
    linear_combination ha

/-- A sum one of whose operands is a pair of quotients, over one denominator. -/
theorem sum_quotient {d n m p q x y : K} (hp : p ≠ 0) (hq : q ≠ 0) :
    (n / p * y + x * (m / q)) / (1 + d * (n / p) * x * (m / q) * y) =
      (n * q * y + x * m * p) / (p * q + d * n * m * x * y) := by
  have e1 : n / p * y + x * (m / q) = (n * q * y + x * m * p) / (p * q) := by field_simp
  have e2 : 1 + d * (n / p) * x * (m / q) * y = (p * q + d * n * m * x * y) / (p * q) := by
    field_simp
  rw [e1, e2, div_div_div_cancel_right₀ (mul_ne_zero hp hq)]

/-- As `sum_quotient`, for the second coordinate. -/
theorem sum_quotient' {d n m p q x y : K} (hp : p ≠ 0) (hq : q ≠ 0) :
    (m / q * y + n / p * x) / (1 - d * (n / p) * x * (m / q) * y) =
      (m * p * y + n * q * x) / (p * q - d * n * m * x * y) := by
  have e1 : m / q * y + n / p * x = (m * p * y + n * q * x) / (p * q) := by field_simp
  have e2 : 1 - d * (n / p) * x * (m / q) * y = (p * q - d * n * m * x * y) / (p * q) := by
    field_simp
  rw [e1, e2, div_div_div_cancel_right₀ (mul_ne_zero hp hq)]

/-- The law is associative on the curve. -/
theorem addK_assoc {a b c : K × K} (ha : CurveK a) (hb : CurveK b) (hc : CurveK c) :
    addK (addK a b) c = addK a (addK b c) := by
  have hp := denom_add_ne ha hb
  have hm := denom_sub_ne ha hb
  have hp' := denom_add_ne hb hc
  have hm' := denom_sub_ne hb hc
  have hP := denom_add_ne (addK_on_curve ha hb) hc
  have hM := denom_sub_ne (addK_on_curve ha hb) hc
  have hP' := denom_add_ne (addK_on_curve hb hc) ha
  have hM' := denom_sub_ne (addK_on_curve hb hc) ha
  rw [addK_comm a (addK b c)]
  obtain ⟨x1, y1⟩ := a
  obtain ⟨x2, y2⟩ := b
  obtain ⟨x3, y3⟩ := c
  simp only [CurveK, addK, Prod.mk.injEq] at *
  have clear : ∀ {n m p q x y : K}, p ≠ 0 → q ≠ 0 →
      (1 + dK * (n / p) * x * (m / q) * y ≠ 0 → p * q + dK * n * m * x * y ≠ 0) ∧
      (1 - dK * (n / p) * x * (m / q) * y ≠ 0 → p * q - dK * n * m * x * y ≠ 0) := by
    intro n m p q x y h1 h2
    constructor
    · intro h e
      apply h
      have : 1 + dK * (n / p) * x * (m / q) * y = (p * q + dK * n * m * x * y) / (p * q) := by
        field_simp
      rw [this, e, zero_div]
    · intro h e
      apply h
      have : 1 - dK * (n / p) * x * (m / q) * y = (p * q - dK * n * m * x * y) / (p * q) := by
        field_simp
      rw [this, e, zero_div]
  have hP := (clear hp hm).1 hP
  have hM := (clear hp hm).2 hM
  have hP' := (clear hp' hm').1 hP'
  have hM' := (clear hp' hm').2 hM'
  rw [sum_quotient hp hm, sum_quotient hp' hm', sum_quotient' hp hm, sum_quotient' hp' hm',
    div_eq_div_iff hP hP', div_eq_div_iff hM hM']
  generalize dK = d at *
  constructor
  · linear_combination
      ((-1)*d^2*x1*x2^4*y2^3*x3^2*y3 + (-1)*d^2*x1*x2^3*y2^4*x3*y3^2 + d^2*y1*x2^4*y2^3*x3*y3^2 +
        d^2*y1*x2^3*y2^4*x3^2*y3 + (-1)*d*x1*x2^4*y2*x3^2*y3 + (-1)*d*x1*x2^3*y2^2*x3^3 +
        (-1)*d*x1*x2^3*y2^2*x3 + d*x1*x2^2*y2^3*y3^3 + (-1)*d*x1*x2^2*y2^3*y3 +
        d*x1*x2*y2^4*x3*y3^2 + d*y1*x2^4*y2*x3*y3^2 + d*y1*x2^3*y2^2*y3^3 +
        (-1)*d*y1*x2^3*y2^2*y3 + (-1)*d*y1*x2^2*y2^3*x3^3 + (-1)*d*y1*x2^2*y2^3*x3 +
        (-1)*d*y1*x2*y2^4*x3^2*y3) * ha
      + (d^2*x1^2*y1*x2^2*y2*x3^3*y3^2 + (-1)*d^2*x1^2*y1*x2*y2^2*x3^2*y3^3 +
        (-1)*d^2*x1*y1^2*x2^2*y2*x3^2*y3^3 + d^2*x1*y1^2*x2*y2^2*x3^3*y3^2 +
        d*x1^3*x2^2*y2*x3^2*y3 + d*x1^3*x2*y2^2*x3*y3^2 + d*x1^3*x2*x3^3*y3^2 +
        d*x1^3*y2*x3^2*y3^3 + (-1)*d*x1^2*y1*x2^2*y2*x3*y3^2 + (-1)*d*x1^2*y1*x2*y2^2*x3^2*y3 +
        d*x1^2*y1*x2*x3^2*y3^3 + d*x1^2*y1*y2*x3^3*y3^2 + (-1)*d*x1*y1^2*x2^2*y2*x3^2*y3 +
        (-1)*d*x1*y1^2*x2*y2^2*x3*y3^2 + (-1)*d*x1*y1^2*x2*x3^3*y3^2 +
        (-1)*d*x1*y1^2*y2*x3^2*y3^3 + d*x1*x2^2*y2*x3^2*y3 + d*x1*x2*y2^2*x3*y3^2 +
        d*x1*x2*x3^3*y3^2 + d*x1*y2*x3^2*y3^3 + d*y1^3*x2^2*y2*x3*y3^2 + d*y1^3*x2*y2^2*x3^2*y3 +
        (-1)*d*y1^3*x2*x3^2*y3^3 + (-1)*d*y1^3*y2*x3^3*y3^2 + (-1)*d*y1*x2^2*y2*x3*y3^2 +
        (-1)*d*y1*x2*y2^2*x3^2*y3 + d*y1*x2*x3^2*y3^3 + d*y1*y2*x3^3*y3^2 + x1^3*x2*x3^3 +
        (-1)*x1^3*x2*x3*y3^2 + x1^3*x2*x3 + x1^3*y2*x3^2*y3 + (-1)*x1^3*y2*y3^3 + x1^3*y2*y3 +
        x1^2*y1*x2*x3^2*y3 + (-1)*x1^2*y1*x2*y3^3 + x1^2*y1*x2*y3 + x1^2*y1*y2*x3^3 +
        (-1)*x1^2*y1*y2*x3*y3^2 + x1^2*y1*y2*x3 + (-1)*x1*y1^2*x2*x3^3 + x1*y1^2*x2*x3*y3^2 +
        (-1)*x1*y1^2*x2*x3 + (-1)*x1*y1^2*y2*x3^2*y3 + x1*y1^2*y2*y3^3 + (-1)*x1*y1^2*y2*y3 +
        x1*x2*x3^3 + (-1)*x1*x2*x3*y3^2 + x1*x2*x3 + x1*y2*x3^2*y3 + (-1)*x1*y2*y3^3 + x1*y2*y3 +
        (-1)*y1^3*x2*x3^2*y3 + y1^3*x2*y3^3 + (-1)*y1^3*x2*y3 + (-1)*y1^3*y2*x3^3 +
        y1^3*y2*x3*y3^2 + (-1)*y1^3*y2*x3 + y1*x2*x3^2*y3 + (-1)*y1*x2*y3^3 + y1*x2*y3 +
        y1*y2*x3^3 + (-1)*y1*y2*x3*y3^2 + y1*y2*x3) * hb
      + ((-1)*d*x1^2*y1*x2^2*y2*x3 + d*x1^2*y1*x2*y2^2*y3 + d*x1*y1^2*x2^2*y2*y3 +
        (-1)*d*x1*y1^2*x2*y2^2*x3 + (-1)*x1^3*x2^3*x3 + (-1)*x1^3*x2^2*y2*y3 + x1^3*x2*y2^2*x3 +
        (-1)*x1^3*x2*x3 + x1^3*y2^3*y3 + (-1)*x1^3*y2*y3 + (-1)*x1^2*y1*x2^3*y3 +
        (-1)*x1^2*y1*x2^2*y2*x3 + x1^2*y1*x2*y2^2*y3 + (-1)*x1^2*y1*x2*y3 + x1^2*y1*y2^3*x3 +
        (-1)*x1^2*y1*y2*x3 + x1*y1^2*x2^3*x3 + x1*y1^2*x2^2*y2*y3 + (-1)*x1*y1^2*x2*y2^2*x3 +
        x1*y1^2*x2*x3 + (-1)*x1*y1^2*y2^3*y3 + x1*y1^2*y2*y3 + (-1)*x1*x2^3*x3 +
        (-1)*x1*x2^2*y2*y3 + x1*x2*y2^2*x3 + (-1)*x1*x2*x3 + x1*y2^3*y3 + (-1)*x1*y2*y3 +
        y1^3*x2^3*y3 + y1^3*x2^2*y2*x3 + (-1)*y1^3*x2*y2^2*y3 + y1^3*x2*y3 + (-1)*y1^3*y2^3*x3 +
        y1^3*y2*x3 + (-1)*y1*x2^3*y3 + (-1)*y1*x2^2*y2*x3 + y1*x2*y2^2*y3 + (-1)*y1*x2*y3 +
        y1*y2^3*x3 + (-1)*y1*y2*x3) * hc
  · linear_combination
      (d^2*x1*x2^4*y2^3*x3*y3^2 + d^2*x1*x2^3*y2^4*x3^2*y3 + (-1)*d^2*y1*x2^4*y2^3*x3^2*y3 +
        (-1)*d^2*y1*x2^3*y2^4*x3*y3^2 + d*x1*x2^4*y2*x3*y3^2 + d*x1*x2^3*y2^2*y3^3 +
        (-1)*d*x1*x2^3*y2^2*y3 + (-1)*d*x1*x2^2*y2^3*x3^3 + (-1)*d*x1*x2^2*y2^3*x3 +
        (-1)*d*x1*x2*y2^4*x3^2*y3 + (-1)*d*y1*x2^4*y2*x3^2*y3 + (-1)*d*y1*x2^3*y2^2*x3^3 +
        (-1)*d*y1*x2^3*y2^2*x3 + d*y1*x2^2*y2^3*y3^3 + (-1)*d*y1*x2^2*y2^3*y3 +
        d*y1*x2*y2^4*x3*y3^2) * ha
      + (d^2*x1^2*y1*x2^2*y2*x3^2*y3^3 + (-1)*d^2*x1^2*y1*x2*y2^2*x3^3*y3^2 +
        (-1)*d^2*x1*y1^2*x2^2*y2*x3^3*y3^2 + d^2*x1*y1^2*x2*y2^2*x3^2*y3^3 +
        (-1)*d*x1^3*x2^2*y2*x3*y3^2 + (-1)*d*x1^3*x2*y2^2*x3^2*y3 + d*x1^3*x2*x3^2*y3^3 +
        d*x1^3*y2*x3^3*y3^2 + d*x1^2*y1*x2^2*y2*x3^2*y3 + d*x1^2*y1*x2*y2^2*x3*y3^2 +
        d*x1^2*y1*x2*x3^3*y3^2 + d*x1^2*y1*y2*x3^2*y3^3 + d*x1*y1^2*x2^2*y2*x3*y3^2 +
        d*x1*y1^2*x2*y2^2*x3^2*y3 + (-1)*d*x1*y1^2*x2*x3^2*y3^3 + (-1)*d*x1*y1^2*y2*x3^3*y3^2 +
        (-1)*d*x1*x2^2*y2*x3*y3^2 + (-1)*d*x1*x2*y2^2*x3^2*y3 + d*x1*x2*x3^2*y3^3 +
        d*x1*y2*x3^3*y3^2 + (-1)*d*y1^3*x2^2*y2*x3^2*y3 + (-1)*d*y1^3*x2*y2^2*x3*y3^2 +
        (-1)*d*y1^3*x2*x3^3*y3^2 + (-1)*d*y1^3*y2*x3^2*y3^3 + d*y1*x2^2*y2*x3^2*y3 +
        d*y1*x2*y2^2*x3*y3^2 + d*y1*x2*x3^3*y3^2 + d*y1*y2*x3^2*y3^3 + x1^3*x2*x3^2*y3 +
        (-1)*x1^3*x2*y3^3 + x1^3*x2*y3 + x1^3*y2*x3^3 + (-1)*x1^3*y2*x3*y3^2 + x1^3*y2*x3 +
        x1^2*y1*x2*x3^3 + (-1)*x1^2*y1*x2*x3*y3^2 + x1^2*y1*x2*x3 + x1^2*y1*y2*x3^2*y3 +
        (-1)*x1^2*y1*y2*y3^3 + x1^2*y1*y2*y3 + (-1)*x1*y1^2*x2*x3^2*y3 + x1*y1^2*x2*y3^3 +
        (-1)*x1*y1^2*x2*y3 + (-1)*x1*y1^2*y2*x3^3 + x1*y1^2*y2*x3*y3^2 + (-1)*x1*y1^2*y2*x3 +
        x1*x2*x3^2*y3 + (-1)*x1*x2*y3^3 + x1*x2*y3 + x1*y2*x3^3 + (-1)*x1*y2*x3*y3^2 + x1*y2*x3 +
        (-1)*y1^3*x2*x3^3 + y1^3*x2*x3*y3^2 + (-1)*y1^3*x2*x3 + (-1)*y1^3*y2*x3^2*y3 +
        y1^3*y2*y3^3 + (-1)*y1^3*y2*y3 + y1*x2*x3^3 + (-1)*y1*x2*x3*y3^2 + y1*x2*x3 +
        y1*y2*x3^2*y3 + (-1)*y1*y2*y3^3 + y1*y2*y3) * hb
      + ((-1)*d*x1^2*y1*x2^2*y2*y3 + d*x1^2*y1*x2*y2^2*x3 + d*x1*y1^2*x2^2*y2*x3 +
        (-1)*d*x1*y1^2*x2*y2^2*y3 + (-1)*x1^3*x2^3*y3 + (-1)*x1^3*x2^2*y2*x3 + x1^3*x2*y2^2*y3 +
        (-1)*x1^3*x2*y3 + x1^3*y2^3*x3 + (-1)*x1^3*y2*x3 + (-1)*x1^2*y1*x2^3*x3 +
        (-1)*x1^2*y1*x2^2*y2*y3 + x1^2*y1*x2*y2^2*x3 + (-1)*x1^2*y1*x2*x3 + x1^2*y1*y2^3*y3 +
        (-1)*x1^2*y1*y2*y3 + x1*y1^2*x2^3*y3 + x1*y1^2*x2^2*y2*x3 + (-1)*x1*y1^2*x2*y2^2*y3 +
        x1*y1^2*x2*y3 + (-1)*x1*y1^2*y2^3*x3 + x1*y1^2*y2*x3 + (-1)*x1*x2^3*y3 +
        (-1)*x1*x2^2*y2*x3 + x1*x2*y2^2*y3 + (-1)*x1*x2*y3 + x1*y2^3*x3 + (-1)*x1*y2*x3 +
        y1^3*x2^3*x3 + y1^3*x2^2*y2*y3 + (-1)*y1^3*x2*y2^2*x3 + y1^3*x2*x3 + (-1)*y1^3*y2^3*y3 +
        y1^3*y2*y3 + (-1)*y1*x2^3*x3 + (-1)*y1*x2^2*y2*y3 + y1*x2*y2^2*x3 + (-1)*y1*x2*x3 +
        y1*y2^3*y3 + (-1)*y1*y2*y3) * hc

theorem CurveK_zero : CurveK (0, 1) := by simp [CurveK]

theorem CurveK_neg {a : K × K} (ha : CurveK a) : CurveK (-a.1, a.2) := by
  rw [CurveK] at *; linear_combination ha

end

end Sys2Proof.Laws
end

