-- ==== Sys2Proof/Laws/Group.lean ====
section
/-! SUPPORT. What the point formulas do, said once: in terms of the affine group of Laws/Curve.lean. -/

namespace Sys2Proof.Laws

set_option Elab.async false

open Sys2Proof.Machine

/-- The affine pair of a point, in the field. -/
def affK [Fact P.Prime] (p : Point) : K × K := ((p.X : K) / p.Z, (p.Y : K) / p.Z)

/-- A pair of numbers, in the field. -/
def castPair (a : Nat × Nat) : K × K := ((a.1 : K), (a.2 : K))

/-- A `finv` is the field's inverse, with 0 for 0 (41_field.md R87). -/
theorem cast_finv [Fact P.Prime] (x : Nat) : ((finv x : Nat) : K) = (x : K)⁻¹ := by
  rw [finv_eq_pow, cast_mod_P, Nat.cast_pow, cast_mod_P]
  by_cases h : (x : K) = 0
  · rw [h, inv_zero, zero_pow (by decide +kernel)]
  · apply eq_inv_of_mul_eq_one_left
    rw [← pow_succ, show P - 2 + 1 = P - 1 by decide +kernel]
    exact ZMod.pow_card_sub_one_eq_one h

/-- `ValidPoint` in the field (43_edwards_group.md R112). -/
theorem validPoint_iff (p : Point) :
    ValidPoint p ↔ (p.Z : K) ≠ 0 ∧ (p.X : K) * p.Y = p.Z * p.T ∧
      (p.Y : K) ^ 2 - p.X ^ 2 = p.Z ^ 2 + dK * p.T ^ 2 := by
  have e1 : fmul p.X p.Y = fmul p.Z p.T ↔ (p.X : K) * p.Y = p.Z * p.T := by
    constructor
    · intro h; simpa using congrArg (Nat.cast : Nat → K) h
    · intro h; exact eq_of_cast_eq (fmul_lt _ _) (fmul_lt _ _) (by simpa using h)
  have e2 : fsub (fsq p.Y) (fsq p.X) = fadd (fsq p.Z) (fmul D (fsq p.T)) ↔
      (p.Y : K) ^ 2 - p.X ^ 2 = p.Z ^ 2 + dK * p.T ^ 2 := by
    constructor
    · intro h; simpa using congrArg (Nat.cast : Nat → K) h
    · intro h; exact eq_of_cast_eq (fsub_lt _ _) (fadd_lt _ _) (by simpa using h)
  rw [ValidPoint, e1, e2, ne_eq, ne_eq, cast_eq_zero_iff]

section

variable [Fact P.Prime]

theorem affK_on_curve {p : Point} (h : ValidPoint p) : CurveK (affK p) := by
  obtain ⟨hz, hxy, hc⟩ := (validPoint_iff p).1 h
  simp only [CurveK, affK]
  field_simp
  linear_combination (p.Z : K) ^ 2 * hc - dK * (p.X * p.Y + p.Z * p.T) * hxy

/-- Four coordinates of the shape the formulas produce, (E·F, G·H, F·G, E·H), whose quotients E/G and
H/F are a curve point, are a valid point with that affine pair. -/
theorem valid_of_quotients {q : Point} {E F G H : K} (hF : F ≠ 0) (hG : G ≠ 0)
    (hX : (q.X : K) = E * F) (hY : (q.Y : K) = G * H) (hZ : (q.Z : K) = F * G)
    (hT : (q.T : K) = E * H) (hc : CurveK (E / G, H / F)) :
    ValidPoint q ∧ affK q = (E / G, H / F) := by
  constructor
  · rw [validPoint_iff, hX, hY, hZ, hT]
    refine ⟨mul_ne_zero hF hG, by ring, ?_⟩
    simp only [CurveK] at hc
    field_simp at hc
    linear_combination hc
  · simp only [affK, hX, hY, hZ, Prod.mk.injEq]
    constructor <;> field_simp

/-- `PointAdd` on valid points: a valid point, whose affine pair is the sum (43_edwards_group.md R117). -/
theorem pointAdd_spec {p q : Point} (hp : ValidPoint p) (hq : ValidPoint q) :
    ValidPoint (pointAdd p q) ∧ affK (pointAdd p q) = addK (affK p) (affK q) := by
  have cp := affK_on_curve hp
  have cq := affK_on_curve hq
  obtain ⟨hz1, hxy1, -⟩ := (validPoint_iff p).1 hp
  obtain ⟨hz2, hxy2, -⟩ := (validPoint_iff q).1 hq
  have hplus := denom_add_ne cp cq
  have hminus := denom_sub_ne cp cq
  have hsum := addK_on_curve cp cq
  have t1 : (p.T : K) = p.X * p.Y / p.Z := by field_simp; linear_combination -hxy1
  have t2 : (q.T : K) = q.X * q.Y / q.Z := by field_simp; linear_combination -hxy2
  have z := mul_ne_zero hz1 hz2
  have two := two_ne_zero_K
  have eG : (2 * (p.Z * q.Z) + 2 * dK * p.T * q.T : K) =
      2 * (p.Z * q.Z) * (1 + dK * (affK p).1 * (affK q).1 * (affK p).2 * (affK q).2) := by
    simp only [affK, t1, t2]; field_simp
  have eF : (2 * (p.Z * q.Z) - 2 * dK * p.T * q.T : K) =
      2 * (p.Z * q.Z) * (1 - dK * (affK p).1 * (affK q).1 * (affK p).2 * (affK q).2) := by
    simp only [affK, t1, t2]; field_simp
  have hG := mul_ne_zero (mul_ne_zero two z) hplus
  have hF := mul_ne_zero (mul_ne_zero two z) hminus
  have eE : (2 * (p.X * q.Y + q.X * p.Y) : K) =
      2 * (p.Z * q.Z) * ((affK p).1 * (affK q).2 + (affK q).1 * (affK p).2) := by
    simp only [affK]; field_simp
  have eH : (2 * (p.Y * q.Y + q.X * p.X) : K) =
      2 * (p.Z * q.Z) * ((affK p).2 * (affK q).2 + (affK q).1 * (affK p).1) := by
    simp only [affK]; field_simp
  have x3 : (2 * (p.X * q.Y + q.X * p.Y) : K) / (2 * (p.Z * q.Z) + 2 * dK * p.T * q.T) =
      (addK (affK p) (affK q)).1 := by
    rw [eE, eG, mul_div_mul_left _ _ (mul_ne_zero two z)]; rfl
  have y3 : (2 * (p.Y * q.Y + q.X * p.X) : K) / (2 * (p.Z * q.Z) - 2 * dK * p.T * q.T) =
      (addK (affK p) (affK q)).2 := by
    rw [eH, eF, mul_div_mul_left _ _ (mul_ne_zero two z), mul_comm (affK q).1]; rfl
  rw [← eG] at hG
  rw [← eF] at hF
  have := valid_of_quotients (q := pointAdd p q) hF hG (E := 2 * (p.X * q.Y + q.X * p.Y))
    (H := 2 * (p.Y * q.Y + q.X * p.X)) (by simp [pointAdd, D2]; ring) (by simp [pointAdd, D2]; ring)
    (by simp [pointAdd, D2]; ring) (by simp [pointAdd]; ring) (by rw [x3, y3]; exact hsum)
  rw [x3, y3] at this
  exact this

/-- `PointDouble` on a valid point: a valid point, whose affine pair is the double
(43_edwards_group.md R119). -/
theorem pointDouble_spec {p : Point} (hp : ValidPoint p) :
    ValidPoint (pointDouble p) ∧ affK (pointDouble p) = addK (affK p) (affK p) := by
  have cp := affK_on_curve hp
  obtain ⟨hz, hxy, hc⟩ := (validPoint_iff p).1 hp
  have hplus := denom_add_ne cp cp
  have hminus := denom_sub_ne cp cp
  have hsum := addK_on_curve cp cp
  have z2 := mul_ne_zero hz hz
  have t1 : dK * ((p.X : K) * p.Y) ^ 2 = ((p.Y : K) ^ 2 - p.X ^ 2 - p.Z ^ 2) * p.Z ^ 2 := by
    linear_combination (dK * (p.X * p.Y + p.Z * p.T)) * hxy - (p.Z : K) ^ 2 * hc
  have eG : ((p.X : K) ^ 2 - p.Y ^ 2) =
      -(p.Z * p.Z) * (1 + dK * (affK p).1 * (affK p).1 * (affK p).2 * (affK p).2) := by
    simp only [affK]; field_simp; linear_combination t1
  have eF : (2 * p.Z ^ 2 + p.X ^ 2 - p.Y ^ 2 : K) =
      p.Z * p.Z * (1 - dK * (affK p).1 * (affK p).1 * (affK p).2 * (affK p).2) := by
    simp only [affK]; field_simp; linear_combination t1
  have hG := mul_ne_zero (neg_ne_zero.2 z2) hplus
  have hF := mul_ne_zero z2 hminus
  have x3 : (-2 * p.X * p.Y : K) / (p.X ^ 2 - p.Y ^ 2) = (addK (affK p) (affK p)).1 := by
    have e : (-2 * p.X * p.Y : K) =
        -(p.Z * p.Z) * ((affK p).1 * (affK p).2 + (affK p).1 * (affK p).2) := by
      simp only [affK]; field_simp; ring
    rw [e, eG, mul_div_mul_left _ _ (neg_ne_zero.2 z2)]; rfl
  have y3 : (p.X ^ 2 + p.Y ^ 2 : K) / (2 * p.Z ^ 2 + p.X ^ 2 - p.Y ^ 2) =
      (addK (affK p) (affK p)).2 := by
    have e : (p.X ^ 2 + p.Y ^ 2 : K) =
        p.Z * p.Z * ((affK p).2 * (affK p).2 + (affK p).1 * (affK p).1) := by
      simp only [affK]; field_simp; ring
    rw [e, eF, mul_div_mul_left _ _ z2]; rfl
  rw [← eG] at hG
  rw [← eF] at hF
  have := valid_of_quotients (q := pointDouble p) hF hG (E := -2 * p.X * p.Y)
    (H := p.X ^ 2 + p.Y ^ 2)
    (by simp only [pointDouble, cast_fmul, cast_fadd, cast_fsub, cast_fsq, Nat.cast_ofNat]; ring)
    (by simp only [pointDouble, cast_fmul, cast_fadd, cast_fsub, cast_fsq])
    (by simp only [pointDouble, cast_fmul, cast_fadd, cast_fsub, cast_fsq, Nat.cast_ofNat]; ring)
    (by simp only [pointDouble, cast_fmul, cast_fadd, cast_fsub, cast_fsq]; ring)
    (by rw [x3, y3]; exact hsum)
  rw [x3, y3] at this
  exact this

/-- `PointNeg` on a valid point: a valid point, whose affine pair is the negative
(43_edwards_group.md R123). -/
theorem pointNeg_spec {p : Point} (hp : ValidPoint p) :
    ValidPoint (pointNeg p) ∧ affK (pointNeg p) = (-(affK p).1, (affK p).2) := by
  obtain ⟨hz, hxy, hc⟩ := (validPoint_iff p).1 hp
  constructor
  · rw [validPoint_iff]
    simp only [pointNeg, cast_fsub, Nat.cast_zero]
    exact ⟨hz, by linear_combination -hxy, by linear_combination hc⟩
  · simp only [affK, pointNeg, cast_fsub, Nat.cast_zero, Prod.mk.injEq, and_true]
    ring

omit [Fact P.Prime] in
theorem valid_identity : ValidPoint identity := by decide +kernel

theorem affK_identity : affK identity = (0, 1) := by simp [affK, identity]

omit [Fact P.Prime] in
theorem valid_basePoint : ValidPoint basePoint := by decide +kernel

/-! ## The pairs of numbers the rules speak of -/

theorem castPair_affine (p : Point) : castPair (affine p) = affK p := by
  simp [castPair, affine, affK, cast_finv, div_eq_mul_inv]

theorem castPair_affineAdd (a b : Nat × Nat) :
    castPair (affineAdd a b) = addK (castPair a) (castPair b) := by
  simp only [castPair, affineAdd, addK, cast_fmul, cast_fadd, cast_fsub, cast_finv, Nat.cast_one,
    div_eq_mul_inv, Prod.mk.injEq]
  constructor <;> congr 2 <;> ring

omit [Fact P.Prime] in
theorem affine_lt (p : Point) : (affine p).1 < P ∧ (affine p).2 < P := ⟨fmul_lt _ _, fmul_lt _ _⟩

omit [Fact P.Prime] in
theorem affineAdd_lt (a b : Nat × Nat) : (affineAdd a b).1 < P ∧ (affineAdd a b).2 < P :=
  ⟨fmul_lt _ _, fmul_lt _ _⟩

omit [Fact P.Prime] in
/-- Pairs of canonical numbers are equal when they are equal in the field. -/
theorem eq_of_castPair_eq {a b : Nat × Nat} (ha : a.1 < P ∧ a.2 < P) (hb : b.1 < P ∧ b.2 < P)
    (h : castPair a = castPair b) : a = b := by
  simp only [castPair, Prod.mk.injEq] at h
  exact Prod.ext (eq_of_cast_eq ha.1 hb.1 h.1) (eq_of_cast_eq ha.2 hb.2 h.2)

/-- `PointEq` on valid points is equality of the affine pairs (43_edwards_group.md R122). -/
theorem pointEq_iff {p q : Point} (hp : ValidPoint p) (hq : ValidPoint q) :
    PointEq p q ↔ affK p = affK q := by
  have hz1 := ((validPoint_iff p).1 hp).1
  have hz2 := ((validPoint_iff q).1 hq).1
  have e : ∀ a b c d : Nat, fmul a b = fmul c d ↔ (a : K) * b = c * d := by
    intro a b c d
    constructor
    · intro h; simpa using congrArg (Nat.cast : Nat → K) h
    · intro h; exact eq_of_cast_eq (fmul_lt _ _) (fmul_lt _ _) (by simpa using h)
  rw [PointEq, e, e, affK, affK, Prod.mk.injEq, div_eq_div_iff hz1 hz2, div_eq_div_iff hz1 hz2]

end

/-! ## Bounds -/

theorem pointAdd_lt (p q : Point) : (pointAdd p q).X < P ∧ (pointAdd p q).Y < P ∧
    (pointAdd p q).Z < P ∧ (pointAdd p q).T < P :=
  ⟨fmul_lt _ _, fmul_lt _ _, fmul_lt _ _, fmul_lt _ _⟩

theorem pointDouble_lt (p : Point) : (pointDouble p).X < P ∧ (pointDouble p).Y < P ∧
    (pointDouble p).Z < P ∧ (pointDouble p).T < P :=
  ⟨fmul_lt _ _, fmul_lt _ _, fmul_lt _ _, fmul_lt _ _⟩

end Sys2Proof.Laws
end

