-- ==== Sys2Proof/Laws/Root.lean ====
section
/-! SUPPORT. What `SqrtRatio` finds (41_field.md R89, R90). -/

namespace Sys2Proof.Laws

set_option Elab.async false

open Sys2Proof.Machine

/-- The candidate's test value: v·x² = u·(u·v⁷)^((P-1)/4) (41_field.md R89). -/
theorem candidate_square (a b : K) (e : Nat) :
    b * (a * b ^ 3 * (a * b ^ 7) ^ e) ^ 2 = a * (a * b ^ 7) ^ (2 * e + 1) := by
  rw [mul_pow, ← pow_mul, mul_comm e 2, pow_succ]
  ring

/-- The two tests of `SqrtRatio`, in the field. -/
theorem sqrtRatio_eq (u v : Nat) : ∃ x : Nat, x < P ∧
    ((v : K) * (x : K) ^ 2 = u * ((u : K) * (v : K) ^ 7) ^ (2 * (2 ^ 252 - 3) + 1)) ∧
    (((v : K) * (x : K) ^ 2 = u ∧ sqrtRatio u v = some x) ∨
     ((v : K) * (x : K) ^ 2 ≠ u ∧ (v : K) * (x : K) ^ 2 = -u ∧
        sqrtRatio u v = some (fmul x SQRTM1)) ∨
     ((v : K) * (x : K) ^ 2 ≠ u ∧ (v : K) * (x : K) ^ 2 ≠ -u ∧ sqrtRatio u v = none)) := by
  let v3 := fmul (fsq (v % P)) (v % P)
  let x := fmul (fmul (u % P) v3) (fsqx (fmul (u % P) (fmul (fsq v3) (v % P))))
  have hx : (x : K) = u * v ^ 3 * ((u : K) * v ^ 7) ^ (2 ^ 252 - 3) := by
    simp only [x, v3, cast_fmul, cast_fsq, cast_fsqx, cast_mod_P]
    rw [show ((v : K) ^ 2 * v) = v ^ 3 by ring, show ((v : K) ^ 3) ^ 2 * v = v ^ 7 by ring]
  have c1 : fmul (v % P) (fsq x) = u % P ↔ (v : K) * (x : K) ^ 2 = u := by
    constructor
    · intro h; simpa using congrArg (Nat.cast : Nat → K) h
    · intro h; exact eq_of_cast_eq (fmul_lt _ _) (Nat.mod_lt _ P_pos) (by simpa using h)
  have c2 : fmul (v % P) (fsq x) = fsub 0 (u % P) ↔ (v : K) * (x : K) ^ 2 = -u := by
    constructor
    · intro h; simpa using congrArg (Nat.cast : Nat → K) h
    · intro h; exact eq_of_cast_eq (fmul_lt _ _) (fsub_lt _ _) (by simpa using h)
  refine ⟨x, fmul_lt _ _, by rw [hx, candidate_square], ?_⟩
  have hdef : sqrtRatio u v = if fmul (v % P) (fsq x) = u % P then some x
      else if fmul (v % P) (fsq x) = fsub 0 (u % P) then some (fmul x SQRTM1) else none := rfl
  by_cases h1 : (v : K) * (x : K) ^ 2 = u
  · exact .inl ⟨h1, by rw [hdef, if_pos (c1.2 h1)]⟩
  · by_cases h2 : (v : K) * (x : K) ^ 2 = -u
    · exact .inr (.inl ⟨h1, h2, by rw [hdef, if_neg (fun h => h1 (c1.1 h)), if_pos (c2.2 h2)]⟩)
    · exact .inr (.inr ⟨h1, h2, by
        rw [hdef, if_neg (fun h => h1 (c1.1 h)), if_neg (fun h => h2 (c2.1 h))]⟩)

/-- What is found is a root of the ratio. -/
theorem sqrtRatio_some {u v x : Nat} (h : sqrtRatio u v = some x) : (v : K) * (x : K) ^ 2 = u := by
  obtain ⟨c, -, -, ⟨h1, h2⟩ | ⟨-, h1, h2⟩ | ⟨-, -, h2⟩⟩ := sqrtRatio_eq u v
  · rw [h] at h2; cases h2; exact h1
  · rw [h] at h2; cases h2
    rw [cast_fmul]
    linear_combination (SQRTM1 : K) ^ 2 * h1 - (u : K) * SQRTM1_sq
  · rw [h] at h2; cases h2

/-- A root is found wherever there is one. -/
theorem sqrtRatio_none [Fact P.Prime] {u v : Nat} (h : sqrtRatio u v = none) (y : K) :
    (v : K) * y ^ 2 ≠ u := by
  intro hy
  obtain ⟨c, -, hc, ⟨-, h2⟩ | ⟨-, -, h2⟩ | ⟨n1, n2, -⟩⟩ := sqrtRatio_eq u v
  · rw [h] at h2; cases h2
  · rw [h] at h2; cases h2
  · rw [hc] at n1 n2
    have hu : (u : K) ≠ 0 := by rintro e; rw [e, zero_mul] at n1; exact n1 rfl
    have hz : (v : K) ^ 4 * y ≠ 0 := by
      intro e
      apply hu
      rw [← hy]
      rcases mul_eq_zero.1 e with e | e
      · rw [pow_eq_zero_iff (by decide)] at e; rw [e, zero_mul]
      · rw [e]; ring
    have hw : ((u : K) * (v : K) ^ 7) = ((v : K) ^ 4 * y) ^ 2 := by rw [← hy]; ring
    have hsq : (((u : K) * (v : K) ^ 7) ^ (2 * (2 ^ 252 - 3) + 1)) ^ 2 = 1 := by
      rw [hw, ← pow_mul, ← pow_mul,
        show 2 * ((2 * (2 ^ 252 - 3) + 1) * 2) = P - 1 by decide +kernel]
      exact ZMod.pow_card_sub_one_eq_one hz
    rcases sq_eq_one_iff.1 hsq with e | e
    · rw [e, mul_one] at n1; exact n1 rfl
    · rw [e, mul_neg_one] at n2; exact n2 rfl

end Sys2Proof.Laws
end

