-- ==== Sys2Proof/Laws/Codec.lean ====
section
/-! SUPPORT. What compression and decompression do (45_point_codec.md). -/

namespace Sys2Proof.Laws

set_option Elab.async false

open Sys2Proof.Machine

/-- The curve equation of numbers, in the field (43_edwards_group.md R110). -/
theorem onCurve_iff (x y : Nat) : OnCurve x y ↔ CurveK ((x : K), (y : K)) := by
  rw [OnCurve, ← cast_eq_iff, CurveK]
  push_cast
  constructor <;> intro h <;> linear_combination h

/-- The ratio of `Decompress` has the square of x as its value exactly on the curve
(45_point_codec.md R147, R149). -/
theorem ratio_iff (x : K) (y : Nat) :
    ((fadd (fmul D (fsq y)) 1 : Nat) : K) * x ^ 2 = (fsub (fsq y) 1 : Nat) ↔ CurveK (x, (y : K)) := by
  rw [CurveK]
  simp only [cast_fadd, cast_fmul, cast_fsq, cast_fsub, Nat.cast_one]
  constructor <;> intro h <;> linear_combination -h

/-- The negative of a non-zero number below an odd modulus has the other parity. -/
theorem sub_mod_parity {m x : Nat} (hm : m % 2 = 1) (h0 : x ≠ 0) (h : x < m) :
    (0 + (m - x % m)) % m % 2 = 1 - x % 2 := by
  rw [Nat.mod_eq_of_lt h, Nat.zero_add, Nat.mod_eq_of_lt (Nat.sub_lt (by omega) (by omega))]
  omega

theorem fsub_zero_parity {x : Nat} (h0 : x ≠ 0) (h : x < P) : fsub 0 x % 2 = 1 - x % 2 :=
  sub_mod_parity (by decide +kernel) h0 h

theorem fsub_zero_zero : fsub 0 0 = 0 := by
  rw [fsub, Nat.zero_mod, Nat.sub_zero, Nat.zero_add, Nat.mod_self]

/-- The x that `Decompress` takes for the root x: of the two, the one of the sign's parity. -/
def pickRoot (sign x : Nat) : Nat := if x % 2 ≠ sign then fsub 0 x else x

theorem pickRoot_lt {sign x : Nat} (h : x < P) : pickRoot sign x < P := by
  unfold pickRoot; split
  · exact fsub_lt _ _
  · exact h

theorem pickRoot_parity {sign x : Nat} (hs : sign < 2) (h : x < P) :
    pickRoot sign x % 2 = sign ∨ pickRoot sign x = 0 := by
  unfold pickRoot; split
  · next hp =>
    by_cases h0 : x = 0
    · rw [h0, fsub_zero_zero]; exact .inr rfl
    · rw [fsub_zero_parity h0 h]; omega
  · next hp => exact .inl (by simpa using hp)

theorem pickRoot_onCurve {sign x y : Nat} (h : OnCurve x y) : OnCurve (pickRoot sign x) y := by
  unfold pickRoot; split
  · rw [onCurve_iff, CurveK] at h ⊢
    rw [cast_fsub, Nat.cast_zero]
    linear_combination h
  · exact h

/-- The two arguments of `SqrtRatio` in `Decompress` (45_point_codec.md R147). -/
def rootOf (y : Nat) : Option Nat := sqrtRatio (fsub (fsq y) 1) (fadd (fmul D (fsq y)) 1)

theorem decompress_out {c : Word} (h : c.toNat % 2 ^ 255 ≥ P) : decompress c = none := if_pos h

theorem decompress_rootless {c : Word} (h : ¬ c.toNat % 2 ^ 255 ≥ P)
    (hr : rootOf (c.toNat % 2 ^ 255) = none) : decompress c = none := by
  unfold decompress
  extract_lets s y yy u v
  rw [if_neg h, show sqrtRatio u v = none from hr]

theorem decompress_root {c : Word} {x : Nat} (h : ¬ c.toNat % 2 ^ 255 ≥ P)
    (hr : rootOf (c.toNat % 2 ^ 255) = some x) : decompress c =
      some { X := pickRoot (c.toNat / 2 ^ 255) x, Y := c.toNat % 2 ^ 255, Z := 1,
             T := fmul (pickRoot (c.toNat / 2 ^ 255) x) (c.toNat % 2 ^ 255) } := by
  unfold decompress
  extract_lets s y yy u v
  rw [if_neg h, show sqrtRatio u v = some x from hr]
  rfl

theorem rootOf_some {x y : Nat} (h : rootOf y = some x) : x < P ∧ OnCurve x y :=
  ⟨sqrtRatio_lt h, (onCurve_iff x y).2 ((ratio_iff x y).1 (sqrtRatio_some h))⟩

theorem rootOf_none [Fact P.Prime] {y : Nat} (h : rootOf y = none) (x : Nat) : ¬ OnCurve x y :=
  fun hc => sqrtRatio_none h x ((ratio_iff x y).2 ((onCurve_iff x y).1 hc))

/-- What `Decompress` gives where it succeeds. -/
theorem decompress_some {c : Word} {q : Point} (h : decompress c = some q) :
    c.toNat % 2 ^ 255 < P ∧ q.X < P ∧ OnCurve q.X (c.toNat % 2 ^ 255) ∧
      (q.X % 2 = c.toNat / 2 ^ 255 ∨ q.X = 0) ∧ q.Y = c.toNat % 2 ^ 255 ∧ q.Z = 1 ∧
      q.T = fmul q.X q.Y := by
  have hs : c.toNat / 2 ^ 255 < 2 := by
    have := c.isLt
    omega
  by_cases hy : c.toNat % 2 ^ 255 ≥ P
  · rw [decompress_out hy] at h; cases h
  · cases hr : rootOf (c.toNat % 2 ^ 255) with
    | none => rw [decompress_rootless hy hr] at h; cases h
    | some x =>
      rw [decompress_root hy hr] at h
      obtain ⟨hlt, hc⟩ := rootOf_some hr
      rw [← Option.some.inj h]
      exact ⟨not_le.1 hy, pickRoot_lt hlt, pickRoot_onCurve hc, pickRoot_parity hs hlt, rfl, rfl, rfl⟩

/-- Where `Decompress` fails there is no point. -/
theorem decompress_none [Fact P.Prime] {c : Word} (h : decompress c = none) :
    ¬ (c.toNat % 2 ^ 255 < P ∧ ∃ x, OnCurve x (c.toNat % 2 ^ 255)) := by
  rintro ⟨hy, x, hx⟩
  cases hr : rootOf (c.toNat % 2 ^ 255) with
  | none => exact rootOf_none hr x hx
  | some x => rw [decompress_root (not_le.2 hy) hr] at h; cases h

/-- A point with Z = 1 and T = X·Y on the curve is valid, and its affine pair is (X, Y). -/
theorem valid_of_onCurve [Fact P.Prime] {q : Point} (hz : q.Z = 1) (ht : q.T = fmul q.X q.Y)
    (hc : OnCurve q.X q.Y) : ValidPoint q ∧ affK q = ((q.X : K), (q.Y : K)) := by
  rw [onCurve_iff, CurveK] at hc
  constructor
  · rw [validPoint_iff, hz, ht, cast_fmul, Nat.cast_one]
    exact ⟨one_ne_zero, by ring, by linear_combination hc⟩
  · rw [affK, hz, Nat.cast_one, div_one, div_one]

/-- Compression is of the affine pair (45_point_codec.md R146). -/
theorem compress_eq (q : Point) : compress q = (affine q).2 + (affine q).1 % 2 * 2 ^ 255 := rfl

theorem compress_lt (q : Point) : compress q < 2 ^ 256 := by
  have h := (affine_lt q).2
  have hP := P_lt
  rw [compress_eq]
  have : (affine q).1 % 2 < 2 := Nat.mod_lt _ (by omega)
  omega

/-- The two parts of a compressed point. -/
theorem compress_parts (q : Point) : compress q % 2 ^ 255 = (affine q).2 ∧
    compress q / 2 ^ 255 = (affine q).1 % 2 := by
  have h := (affine_lt q).2
  have hP := P_lt
  rw [compress_eq]
  have : (affine q).1 % 2 < 2 := Nat.mod_lt _ (by omega)
  omega

/-- Two canonical numbers on the curve with one y are equal or opposite, so they are equal when their
parities are (45_point_codec.md R149). -/
theorem eq_of_parity [Fact P.Prime] {x x' y : Nat} (hx : x < P) (hx' : x' < P) (h : OnCurve x y)
    (h' : OnCurve x' y) (hp : x % 2 = x' % 2) : x = x' := by
  rw [onCurve_iff, CurveK] at h h'
  have hf : ((x : K) - x') * (x + x') * (dK * (y : K) ^ 2 + 1) = 0 := by
    linear_combination h' - h
  rcases mul_eq_zero.1 hf with hf | hf
  · rcases mul_eq_zero.1 hf with hf | hf
    · exact eq_of_cast_eq hx hx' (sub_eq_zero.1 hf)
    · have e : x = fsub 0 x' := by
        apply eq_of_cast_eq hx (fsub_lt _ _)
        rw [cast_fsub, Nat.cast_zero, zero_sub]
        exact eq_neg_of_add_eq_zero_left hf
      by_cases h0 : x' = 0
      · rw [e, h0, fsub_zero_zero]
      · have := fsub_zero_parity h0 hx'
        omega
  · exact absurd hf (dysq_ne _)

end Sys2Proof.Laws
end

