-- ==== Sys2Proof/Laws/Decode.lean ====
section
/-! SUPPORT. What the decoder does, said once: the fields of a word, the rows of the opcode map. -/

namespace Sys2Proof

set_option Elab.async false

/-! ## The fields of a word -/

theorem bitsOf_lt (c : BusWord) (lo w : Nat) : bitsOf c lo w < 2 ^ w := Nat.mod_lt _ (by positivity)

/-- Bit 8, the reserved bit, as a field. -/
theorem bitsOf_eight (c : BusWord) : bitsOf c 8 1 = (c.getLsbD 8).toNat := by
  rw [BitVec.getLsbD, Nat.testBit_eq_decide_div_mod_eq, bitsOf, pow_one]
  rcases Nat.mod_two_eq_zero_or_one (c.toNat / 2 ^ 8) with h | h <;> rw [h] <;> rfl

/-- A field of a conjunction is the conjunction of the fields. -/
theorem bitsOf_and (c m : BusWord) (lo w : Nat) :
    bitsOf (c &&& m) lo w = bitsOf c lo w &&& bitsOf m lo w := by
  apply Nat.eq_of_testBit_eq
  intro k
  simp only [bitsOf, BitVec.toNat_and, Nat.testBit_mod_two_pow, Nat.testBit_div_two_pow, Nat.testBit_and]
  by_cases h : k < w <;> simp [h]

/-- A word is its six fields. -/
theorem toNat_fields (c : BusWord) : c.toNat = opField c * 2 ^ 24 + rdField c * 2 ^ 19 +
    raField c * 2 ^ 14 + rbField c * 2 ^ 9 + bitsOf c 8 1 * 2 ^ 8 + immField c := by
  have := c.isLt
  simp only [opField, rdField, raField, rbField, immField, bitsOf]
  omega

theorem eq_of_fields {c d : BusWord} (h1 : opField c = opField d) (h2 : rdField c = rdField d)
    (h3 : raField c = raField d) (h4 : rbField c = rbField d) (h5 : bitsOf c 8 1 = bitsOf d 8 1)
    (h6 : immField c = immField d) : c = d := by
  apply BitVec.eq_of_toNat_eq
  rw [toNat_fields c, toNat_fields d, h1, h2, h3, h4, h5, h6]

/-- A row matches a word when it matches it field by field. -/
theorem matches_iff (row : OpcodeRow) (c : BusWord) : row.matches c = true ↔
    opField c &&& opField row.mask = opField row.bits ∧
    rdField c &&& rdField row.mask = rdField row.bits ∧
    raField c &&& raField row.mask = raField row.bits ∧
    rbField c &&& rbField row.mask = rbField row.bits ∧
    bitsOf c 8 1 &&& bitsOf row.mask 8 1 = bitsOf row.bits 8 1 ∧
    immField c &&& immField row.mask = immField row.bits := by
  rw [OpcodeRow.matches, beq_iff_eq]
  simp only [opField, rdField, raField, rbField, immField, ← bitsOf_and]
  constructor
  · intro h; simp only [h, and_self]
  · rintro ⟨h1, h2, h3, h4, h5, h6⟩
    exact eq_of_fields h1 h2 h3 h4 h5 h6

section
variable {op rd ra rb imm : Nat} (hop : op < 256) (hrd : rd < 32) (hra : ra < 32) (hrb : rb < 32)
  (him : imm < 256)
include hop hrd hra hrb him

theorem toNat_commandWord : (commandWord op rd ra rb imm).toNat =
    op * 2 ^ 24 + rd * 2 ^ 19 + ra * 2 ^ 14 + rb * 2 ^ 9 + imm := by
  rw [commandWord, BitVec.toNat_ofNat, Nat.mod_eq_of_lt]; omega

/-- The fields of a command word are what it was made of (30_encoding.md R61). -/
theorem commandWord_fields : opField (commandWord op rd ra rb imm) = op ∧
    rdField (commandWord op rd ra rb imm) = rd ∧ raField (commandWord op rd ra rb imm) = ra ∧
    rbField (commandWord op rd ra rb imm) = rb ∧ bitsOf (commandWord op rd ra rb imm) 8 1 = 0 ∧
    immField (commandWord op rd ra rb imm) = imm := by
  simp only [opField, rdField, raField, rbField, immField, bitsOf,
    toNat_commandWord hop hrd hra hrb him]
  omega
end

/-- A word with its reserved bit clear is the command word of its fields. -/
theorem eq_commandWord {c : BusWord} (h : bitsOf c 8 1 = 0) :
    c = commandWord (opField c) (rdField c) (raField c) (rbField c) (immField c) := by
  apply BitVec.eq_of_toNat_eq
  have h1 := bitsOf_lt c
  rw [toNat_fields c, h]
  simp only [opField, rdField, raField, rbField, immField]
  rw [toNat_commandWord (h1 24 8) (h1 19 5) (h1 14 5) (h1 9 5) (h1 0 8), Nat.zero_mul, Nat.add_zero]

theorem wOperand_val (f : Nat) (h : f < 32) : (wOperand f).val = f := by
  rw [wOperand, Fin.val_ofNat, Nat.mod_eq_of_lt h]
@[simp] theorem wOperand_self (i : WReg) : wOperand i.val = i := by
  apply Fin.ext; rw [wOperand_val _ i.isLt]
@[simp] theorem pOperand_four (j : PView) : pOperand (4 * j.val) = j := by
  apply Fin.ext; rw [pOperand, Fin.val_ofNat]; omega
/-- A p operand field that is a multiple of 4. -/
theorem four_pOperand {f : Nat} (h : f < 32) (h4 : f &&& 3 = 0) : 4 * (pOperand f).val = f := by
  rw [pOperand, Fin.val_ofNat]
  have : f &&& 3 = f % 4 := Nat.and_two_pow_sub_one_eq_mod f 2
  omega

theorem four_and_three (j : PView) : 4 * j.val &&& 3 = 0 := by revert j; decide


/-! ## The rows of the opcode map -/

/-- A row that matches a word has its opcode, since every mask covers the opcode. -/
theorem op_of_matches {row : OpcodeRow} {c : BusWord} (hm : opField row.mask = 255)
    (h : row.matches c = true) : opField row.bits = opField c := by
  rw [← ((matches_iff row c).1 h).1, hm]
  have : opField c &&& 255 = opField c % 256 := Nat.and_two_pow_sub_one_eq_mod (opField c) 8
  have := bitsOf_lt c 24 8
  simp only [opField] at *
  omega

/-- In a list of rows of different opcodes, looking for the row that matches a word is looking for the
row of its opcode and seeing whether that one matches. -/
theorem find_matches (c : BusWord) : ∀ rows : List OpcodeRow, (∀ r ∈ rows, opField r.mask = 255) →
    rows.Pairwise (fun r r' => opField r.bits ≠ opField r'.bits) →
    rows.find? (fun r => r.matches c) =
      (rows.find? (fun r => opField r.bits == opField c)).filter (fun r => r.matches c)
  | [], _, _ => rfl
  | r :: rows, hm, hd => by
    have ih := find_matches c rows (fun r' h => hm r' (List.mem_cons_of_mem _ h)) hd.of_cons
    by_cases h : r.matches c = true
    · have ho := op_of_matches (hm r List.mem_cons_self) h
      simp [h, ho, Option.filter]
    · by_cases ho : opField r.bits = opField c
      · simp only [List.find?, h, ho, BEq.rfl, Option.filter, if_false, Bool.false_eq_true]
        rw [List.find?_eq_none]
        intro r' hr' hm'
        exact (List.pairwise_cons.1 hd).1 r' hr'
          (ho.trans (op_of_matches (hm r' (List.mem_cons_of_mem _ hr')) hm').symm)
      · have hb : (opField r.bits == opField c) = false := by simpa using ho
        simp only [List.find?, h, hb, ih]

/-- Decoding by opcode: the row of the word's opcode, if it matches. -/
theorem decode_eq (c : BusWord) : decode c =
    match (opcodeMap.find? (fun r => opField r.bits == opField c)).filter (fun r => r.matches c) with
    | some row => .ok (row.build c)
    | none => .error (illegalCause c) := by
  rw [← find_matches c opcodeMap (by decide +kernel) (by decide +kernel)]
  rfl

/-- A word decodes to what the row of its opcode builds, when that row matches it. -/
theorem decode_of_row {c : BusWord} {row : OpcodeRow}
    (hr : opcodeMap.find? (fun r => opField r.bits == opField c) = some row)
    (hm : row.matches c = true) : decode c = .ok (row.build c) := by
  rw [decode_eq, hr, Option.filter, if_pos hm]

/-- Whatever the decoder accepts was built by a row of the map that matches it. -/
theorem row_of_decode {c : BusWord} {i : Instr} (h : decode c = .ok i) :
    ∃ row ∈ opcodeMap, row.matches c = true ∧ row.build c = i := by
  rw [decode] at h
  split at h
  · next row hf => exact ⟨row, List.mem_of_find?_eq_some hf, List.find?_some (p := fun r : OpcodeRow => r.matches c) hf, Except.ok.inj h⟩
  · cases h

/-- A word no row matches is refused. -/
theorem decode_error {c : BusWord} (h : ∀ row ∈ opcodeMap, row.matches c = false) :
    ∃ e, decode c = .error e := by
  rw [decode, List.find?_eq_none.2 (fun r hr => by simp [h r hr])]
  exact ⟨_, rfl⟩

end Sys2Proof
end

