-- ==== Sys2Proof/Laws/State.lean ====
section
/-! SUPPORT. One small lemma per field per update of the state, and the laws of the register file. -/

namespace Sys2Proof.Machine

set_option Elab.async false

variable (s : State) (i j : WReg) (v : Word) (n : Nat) (c : ResultCode) (z : Bool) (b : BusWord)

/-! ## The register file -/

@[simp] theorem readW_writeW_same : (s.writeW i v).readW i = v := by
  simp [State.readW, State.writeW]

theorem readW_writeW_ne (h : j ≠ i) : (s.writeW i v).readW j = s.readW j := by
  have : i.val ≠ j.val := fun e => h (Fin.ext e.symm)
  simp [State.readW, State.writeW, Vector.getElem_set_ne _ _ this]

theorem readW_writeW : (s.writeW i v).readW j = if j = i then v else s.readW j := by
  by_cases h : j = i
  · subst h; simp
  · simp [h, readW_writeW_ne]

@[simp] theorem writeW_status : (s.writeW i v).status = s.status := rfl
@[simp] theorem writeW_port : (s.writeW i v).port = s.port := rfl
@[simp] theorem writeW_replies : (s.writeW i v).replies = s.replies := rfl
@[simp] theorem writeW_resets : (s.writeW i v).resets = s.resets := rfl

/-! ## The end of a command -/

@[simp] theorem setCode_readW : (s.setCode c).readW i = s.readW i := rfl
@[simp] theorem setCode_status : (s.setCode c).status = { code := c, zf := s.status.zf } := rfl
@[simp] theorem setCode_port : (s.setCode c).port = s.port := rfl
@[simp] theorem setCode_replies : (s.setCode c).replies = s.replies := rfl
@[simp] theorem setCode_resets : (s.setCode c).resets = s.resets := rfl

@[simp] theorem complete_readW : s.complete.readW i = s.readW i := rfl
@[simp] theorem complete_status : s.complete.status = { code := .ok, zf := s.status.zf } := rfl
@[simp] theorem complete_port : s.complete.port = s.port := rfl
@[simp] theorem complete_replies : s.complete.replies = s.replies := rfl
@[simp] theorem complete_resets : s.complete.resets = s.resets := rfl

@[simp] theorem raise_readW : (s.raise c).readW i = s.readW i := rfl
@[simp] theorem raise_status : (s.raise c).status = { code := c, zf := s.status.zf } := rfl
@[simp] theorem raise_port : (s.raise c).port = s.port := rfl
@[simp] theorem raise_replies : (s.raise c).replies = s.replies := rfl
@[simp] theorem raise_resets : (s.raise c).resets = s.resets := rfl

@[simp] theorem setZf_readW : (s.setZf z).readW i = s.readW i := rfl
@[simp] theorem setZf_status : (s.setZf z).status = { code := s.status.code, zf := z } := rfl
@[simp] theorem setZf_port : (s.setZf z).port = s.port := rfl
@[simp] theorem setZf_replies : (s.setZf z).replies = s.replies := rfl
@[simp] theorem setZf_resets : (s.setZf z).resets = s.resets := rfl

/-! ## A reply to the host -/

@[simp] theorem reply_readW : (s.reply b).readW i = s.readW i := rfl
@[simp] theorem reply_status : (s.reply b).status = s.status := rfl
@[simp] theorem reply_port : (s.reply b).port = s.port := rfl
@[simp] theorem reply_replies : (s.reply b).replies = s.replies ++ [b] := rfl
@[simp] theorem reply_resets : (s.reply b).resets = s.resets := rfl

/-! ## The external reset -/

@[simp] theorem externalReset_readW :
    s.externalReset.readW i = Config.resetContents s.resets s.w i := by
  simp [State.readW, State.externalReset]
@[simp] theorem externalReset_status : s.externalReset.status = .reset := rfl
@[simp] theorem externalReset_port : s.externalReset.port = s.port := by
  cases s; rfl
@[simp] theorem externalReset_replies : s.externalReset.replies = s.replies := by
  cases s; rfl
@[simp] theorem externalReset_resets : s.externalReset.resets = s.resets + 1 := by
  cases s; rfl

/-! ## A popped event -/

variable (es : List HostEvent)

@[simp] theorem withPort_readW : ({ s with port := es } : State).readW i = s.readW i := rfl

/-! ## Operands -/

theorem intOf_lt : s.intOf i < 2 ^ 256 := (s.readW i).isLt

@[simp] theorem putInt_status : (s.putInt i n).status = s.status := rfl
@[simp] theorem putInt_port : (s.putInt i n).port = s.port := rfl
@[simp] theorem putInt_replies : (s.putInt i n).replies = s.replies := rfl
@[simp] theorem putInt_resets : (s.putInt i n).resets = s.resets := rfl

theorem readW_putInt :
    (s.putInt i n).readW j = if j = i then BitVec.ofNat 256 n else s.readW j := readW_writeW ..

theorem intOf_putInt_same (h : n < 2 ^ 256) : (s.putInt i n).intOf i = n := by
  rw [State.intOf, State.putInt, readW_writeW_same, BitVec.toNat_ofNat, Nat.mod_eq_of_lt h]

theorem intOf_putInt_ne (h : j ≠ i) : (s.putInt i n).intOf j = s.intOf j := by
  simp [State.intOf, State.putInt, readW_writeW_ne _ _ _ _ h]

@[simp] theorem viewReg_inj (p q : PView) (k l : Fin 4) :
    viewReg p k = viewReg q l ↔ p = q ∧ k = l := by
  simp only [viewReg, Fin.ext_iff]; omega

variable (p : PView) (q : Point)

@[simp] theorem writeP_status : (s.writeP p q).status = s.status := rfl
@[simp] theorem writeP_port : (s.writeP p q).port = s.port := rfl
@[simp] theorem writeP_replies : (s.writeP p q).replies = s.replies := rfl
@[simp] theorem writeP_resets : (s.writeP p q).resets = s.resets := rfl

/-- A register outside the view keeps its value. -/
theorem readW_writeP_ne (h : ∀ k, i ≠ viewReg p k) : (s.writeP p q).readW i = s.readW i := by
  simp [State.writeP, readW_putInt, h]

/-- Reading back the view just written gives the point, when its coordinates fit a register. -/
theorem readP_writeP_same (hX : q.X < 2 ^ 256) (hY : q.Y < 2 ^ 256) (hZ : q.Z < 2 ^ 256)
    (hT : q.T < 2 ^ 256) : (s.writeP p q).readP p = q := by
  cases q
  simp_all [State.readP, State.writeP, State.intOf, readW_putInt, Nat.mod_eq_of_lt]

/-- The other views keep their points. -/
theorem readP_writeP_ne (r : PView) (h : r ≠ p) : (s.writeP p q).readP r = s.readP r := by
  simp [State.readP, State.intOf, readW_writeP_ne, h]

@[simp] theorem setCode_readP : (s.setCode c).readP p = s.readP p := rfl
@[simp] theorem complete_readP : s.complete.readP p = s.readP p := rfl
@[simp] theorem raise_readP : (s.raise c).readP p = s.readP p := rfl
@[simp] theorem reply_readP : (s.reply b).readP p = s.readP p := rfl
@[simp] theorem withPort_readP : ({ s with port := es } : State).readP p = s.readP p := rfl
@[simp] theorem complete_intOf : s.complete.intOf i = s.intOf i := rfl
@[simp] theorem raise_intOf : (s.raise c).intOf i = s.intOf i := rfl
@[simp] theorem setZf_intOf : (s.setZf z).intOf i = s.intOf i := rfl

/-- Two states are equal when their registers and their other fields are. -/
theorem State.ext_readW {s t : State} (hw : ∀ i, s.readW i = t.readW i) (hst : s.status = t.status)
    (hp : s.port = t.port) (hr : s.replies = t.replies) (hn : s.resets = t.resets) : s = t := by
  cases s; cases t
  simp only [State.readW] at hw
  simp_all only [State.mk.injEq, and_true]
  apply Vector.ext
  intro k hk
  exact hw ⟨k, hk⟩

end Sys2Proof.Machine
end

