-- ==== Sys2Proof/Laws/Exec.lean ====
section
/-! SUPPORT. What the shared ends of a command leave unchanged, and everything a command can do. -/

namespace Sys2Proof.Machine

set_option Elab.async false

variable (s : State)

/-! ## Frames (70_reset_and_hazards.md R200) -/

theorem unchanged_writeW (rd : WReg) (v : Word) : UnchangedBut [rd] s ((s.writeW rd v).complete) :=
  ⟨fun r hr => readW_writeW_ne _ _ _ _ (by simpa using hr), rfl, rfl, rfl⟩

theorem unchanged_putInt (rd : WReg) (n : Nat) : UnchangedBut [rd] s ((s.putInt rd n).complete) :=
  unchanged_writeW s rd _

theorem mem_viewRegs (j : PView) (k : Fin 4) : viewReg j k ∈ viewRegs j := by
  fin_cases k <;> simp [viewRegs]

theorem unchanged_writeP (rd : PView) (q : Point) :
    UnchangedBut (viewRegs rd) s ((s.writeP rd q).complete) :=
  ⟨fun r hr => readW_writeP_ne s r rd q (fun k e => hr (e ▸ mem_viewRegs rd k)), rfl, rfl, rfl⟩

theorem unchanged_raise (c : ResultCode) : UnchangedBut [] s (s.raise c) :=
  ⟨fun _ _ => rfl, rfl, rfl, rfl⟩

theorem UnchangedBut.mono {rs rs' : List WReg} {s t : State} (h : UnchangedBut rs s t)
    (hs : ∀ r ∈ rs, r ∈ rs') : UnchangedBut rs' s t :=
  ⟨fun r hr => h.1 r (fun hr' => hr (hs r hr')), h.2⟩

/-! ## Result values -/

/-- A canonical result, read back. -/
theorem toNat_readW_putInt (rd : WReg) {n : Nat} (h : n < P) :
    ((s.putInt rd n).complete.readW rd).toNat = n :=
  intOf_putInt_same s rd n (h.trans P_lt_word)

theorem readP_writeP (rd : PView) {q : Point} (hX : q.X < P) (hY : q.Y < P) (hZ : q.Z < P)
    (hT : q.T < P) : ((s.writeP rd q).complete).readP rd = q :=
  readP_writeP_same s rd q (hX.trans P_lt_word) (hY.trans P_lt_word) (hZ.trans P_lt_word)
    (hT.trans P_lt_word)

/-- Two states into which one value has been written agree at what was written. -/
theorem writeW_agree (s' : State) (rd : WReg) (v : Word) :
    ∀ r ∈ [rd], ((s.writeW rd v).complete).readW r = ((s'.writeW rd v).complete).readW r := by
  intro r hr
  obtain rfl := List.mem_singleton.1 hr
  rw [complete_readW, complete_readW, readW_writeW_same, readW_writeW_same]

theorem writeP_agree (s' : State) (rd : PView) (q : Point) : ∀ r ∈ viewRegs rd,
    ((s.writeP rd q).complete).readW r = ((s'.writeP rd q).complete).readW r := by
  intro r hr
  rw [complete_readW, complete_readW]
  simp only [viewRegs, List.mem_cons, List.not_mem_nil, or_false] at hr
  rcases hr with rfl | rfl | rfl | rfl <;> simp [State.writeP, readW_putInt]

/-! ## The meanings, as equations -/

variable (rd ra rb : WReg) (pd pa pb : PView) (k : Nat)

theorem exec_fred : exec (.fred rd ra) s = .next ((s.putInt rd (fred (s.intOf ra))).complete) := rfl
theorem exec_fadd : exec (.fadd rd ra rb) s =
    .next ((s.putInt rd (fadd (s.intOf ra) (s.intOf rb))).complete) := rfl
theorem exec_fsub : exec (.fsub rd ra rb) s =
    .next ((s.putInt rd (fsub (s.intOf ra) (s.intOf rb))).complete) := rfl
theorem exec_fmul : exec (.fmul rd ra rb) s =
    .next ((s.putInt rd (fmul (s.intOf ra) (s.intOf rb))).complete) := rfl
theorem exec_fpsq : exec (.fpsq rd ra rb k) s =
    .next ((s.putInt rd (fpsq (s.intOf ra) k (s.intOf rb))).complete) := rfl
theorem exec_finv : exec (.finv rd ra) s = .next ((s.putInt rd (finv (s.intOf ra))).complete) := rfl
theorem exec_fsqx : exec (.fsqx rd ra) s = .next ((s.putInt rd (fsqx (s.intOf ra))).complete) := rfl
theorem exec_clamp : exec (.clamp rd ra) s =
    .next ((s.writeW rd (clamp (s.readW ra))).complete) := rfl
theorem exec_padd : exec (.padd pd pa pb) s =
    .next ((s.writeP pd (pointAdd (s.readP pa) (s.readP pb))).complete) := rfl
theorem exec_pdbl : exec (.pdbl pd pa) s =
    .next ((s.writeP pd (pointDouble (s.readP pa))).complete) := rfl
theorem exec_smulb : exec (.smulb pd ra) s =
    .next ((s.writeP pd (mulBase (s.intOf ra))).complete) := rfl
theorem exec_pcmp : exec (.pcmp rd pa) s =
    .next ((s.putInt rd (compress (s.readP pa))).complete) := rfl
theorem exec_xlad : exec (.xlad rd ra rb) s =
    .next (((s.putInt rd (ladder (s.readW ra) (s.readW rb))).setZf
      (zeroFlag (ladder (s.readW ra) (s.readW rb)))).complete) := rfl

theorem exec_fsqrt_some {x : Nat} (h : sqrtRatio (s.intOf ra) (s.intOf rb) = some x) :
    exec (.fsqrt rd ra rb) s = .next ((s.putInt rd x).complete) := by
  rw [exec, execFsqrt, h]
theorem exec_fsqrt_none (h : sqrtRatio (s.intOf ra) (s.intOf rb) = none) :
    exec (.fsqrt rd ra rb) s = .next (s.raise .noSquareRoot) := by
  rw [exec, execFsqrt, h]
theorem exec_pdec_some {q : Point} (h : decompress (s.readW ra) = some q) :
    exec (.pdec pd ra) s = .next ((s.writeP pd q).complete) := by
  rw [exec, execPdec, h]
theorem exec_pdec_none (h : decompress (s.readW ra) = none) :
    exec (.pdec pd ra) s = .next (s.raise .invalidPoint) := by
  rw [exec, execPdec, h]

/-! ## One command -/

/-- Everything a command can do: write one register or one view and complete, `XLAD` with its flag, or
end with the code of `FSQRT` or `PDEC` and nothing else. -/
theorem exec_cases (i : Instr) :
    (∃ rd v, i.destinations = [rd] ∧ i.writesZf = false ∧
      exec i s = .next ((s.writeW rd v).complete)) ∨
    (∃ rd q, i.destinations = viewRegs rd ∧ i.writesZf = false ∧
      exec i s = .next ((s.writeP rd q).complete)) ∨
    (∃ rd ra rb n, i = .xlad rd ra rb ∧
      exec i s = .next (((s.putInt rd n).setZf (zeroFlag n)).complete)) ∨
    (∃ rd ra rb, i = .fsqrt rd ra rb ∧ exec i s = .next (s.raise .noSquareRoot)) ∨
    (∃ rd ra, i = .pdec rd ra ∧ exec i s = .next (s.raise .invalidPoint)) := by
  cases i with
  | fred rd ra => exact .inl ⟨rd, _, rfl, rfl, exec_fred s rd ra⟩
  | fadd rd ra rb => exact .inl ⟨rd, _, rfl, rfl, exec_fadd s rd ra rb⟩
  | fsub rd ra rb => exact .inl ⟨rd, _, rfl, rfl, exec_fsub s rd ra rb⟩
  | fmul rd ra rb => exact .inl ⟨rd, _, rfl, rfl, exec_fmul s rd ra rb⟩
  | fpsq rd ra rb k => exact .inl ⟨rd, _, rfl, rfl, exec_fpsq s rd ra rb k⟩
  | finv rd ra => exact .inl ⟨rd, _, rfl, rfl, exec_finv s rd ra⟩
  | fsqx rd ra => exact .inl ⟨rd, _, rfl, rfl, exec_fsqx s rd ra⟩
  | fsqrt rd ra rb =>
    cases h : sqrtRatio (s.intOf ra) (s.intOf rb) with
    | some x => exact .inl ⟨rd, _, rfl, rfl, exec_fsqrt_some s rd ra rb h⟩
    | none => exact .inr (.inr (.inr (.inl ⟨rd, ra, rb, rfl, exec_fsqrt_none s rd ra rb h⟩)))
  | clamp rd ra => exact .inl ⟨rd, _, rfl, rfl, exec_clamp s rd ra⟩
  | padd rd ra rb => exact .inr (.inl ⟨rd, _, rfl, rfl, exec_padd s rd ra rb⟩)
  | pdbl rd ra => exact .inr (.inl ⟨rd, _, rfl, rfl, exec_pdbl s rd ra⟩)
  | smulb rd ra => exact .inr (.inl ⟨rd, _, rfl, rfl, exec_smulb s ra rd⟩)
  | pcmp rd ra => exact .inl ⟨rd, _, rfl, rfl, exec_pcmp s rd ra⟩
  | pdec rd ra =>
    cases h : decompress (s.readW ra) with
    | some q => exact .inr (.inl ⟨rd, _, rfl, rfl, exec_pdec_some s ra rd h⟩)
    | none => exact .inr (.inr (.inr (.inr ⟨rd, ra, rfl, exec_pdec_none s ra rd h⟩)))
  | xlad rd ra rb => exact .inr (.inr (.inl ⟨rd, ra, rb, _, rfl, exec_xlad s rd ra rb⟩))

end Sys2Proof.Machine
end

