-- ==== Sys2Proof/Laws/FixedBase.lean ====
section
/-! SUPPORT. Multiples in the affine group, and what the table and the multiplier's loop do
(44_fixed_base.md). -/

namespace Sys2Proof.Laws

set_option Elab.async false

open Sys2Proof.Machine

variable [Fact P.Prime]

/-- `n·a`: a added to itself n times, `0·a` the identity (43_edwards_group.md R116). -/
def mulK : Nat → K × K → K × K
  | 0, _ => (0, 1)
  | n + 1, a => addK (mulK n a) a

/-- The definition's two cases, as equations. -/
theorem mulK_zero (a : K × K) : mulK 0 a = (0, 1) := rfl

theorem mulK_succ (n : Nat) (a : K × K) : mulK (n + 1) a = addK (mulK n a) a := rfl

theorem mulK_one (a : K × K) : mulK 1 a = a := by
  rw [mulK_succ 0, mulK_zero, zero_addK]

theorem mulK_on_curve {a : K × K} (ha : CurveK a) : ∀ n, CurveK (mulK n a)
  | 0 => CurveK_zero
  | n + 1 => addK_on_curve (mulK_on_curve ha n) ha

theorem mulK_add {a : K × K} (ha : CurveK a) (m : Nat) :
    ∀ n, mulK (m + n) a = addK (mulK m a) (mulK n a)
  | 0 => by rw [Nat.add_zero, mulK_zero, addK_zero]
  | n + 1 => by
    rw [← Nat.add_assoc, mulK_succ (m + n), mulK_add ha m n, mulK_succ n,
      addK_assoc (mulK_on_curve ha m) (mulK_on_curve ha n) ha]

theorem mulK_mul {a : K × K} (ha : CurveK a) (m : Nat) : ∀ n, mulK n (mulK m a) = mulK (n * m) a
  | 0 => by rw [Nat.zero_mul, mulK_zero, mulK_zero]
  | n + 1 => by rw [mulK_succ n, mulK_mul ha m n, Nat.succ_mul, mulK_add ha]

/-- A summand may be cancelled. -/
theorem addK_cancel {a b c : K × K} (ha : CurveK a) (hb : CurveK b) (hc : CurveK c)
    (h : addK a c = addK b c) : a = b := by
  have h' : addK (addK a c) (-c.1, c.2) = addK (addK b c) (-c.1, c.2) := by rw [h]
  rwa [addK_assoc ha hc (CurveK_neg hc), addK_assoc hb hc (CurveK_neg hc), addK_neg hc, addK_zero,
    addK_zero] at h'

/-- The base point's affine pair. -/
def baseK : K × K := affK basePoint

theorem baseK_eq : baseK = affK basePoint := rfl

theorem baseK_on_curve : CurveK baseK := affK_on_curve valid_basePoint

theorem doubleTimes_spec : ∀ (n : Nat) {q : Point}, ValidPoint q →
    ValidPoint (doubleTimes n q) ∧ affK (doubleTimes n q) = mulK (2 ^ n) (affK q)
  | 0, q, h => by rw [doubleTimes, pow_zero, mulK_one]; exact ⟨h, rfl⟩
  | n + 1, q, h => by
    obtain ⟨hv, ha⟩ := pointDouble_spec h
    obtain ⟨hv', ha'⟩ := doubleTimes_spec n hv
    have hc := affK_on_curve h
    have e : addK (affK q) (affK q) = mulK 2 (affK q) := by rw [mulK_succ 1, mulK_one]
    rw [doubleTimes, ha', ha, e, mulK_mul hc, ← pow_succ]
    exact ⟨hv', rfl⟩

theorem rung_spec : ∀ w, ValidPoint (rung w) ∧ affK (rung w) = mulK (2 ^ (8 * w)) baseK
  | 0 => by rw [rung, Nat.mul_zero, pow_zero, mulK_one]; exact ⟨valid_basePoint, baseK_eq.symm⟩
  | w + 1 => by
    obtain ⟨hv, ha⟩ := rung_spec w
    obtain ⟨hv', ha'⟩ := doubleTimes_spec 8 hv
    rw [rung, ha', ha, mulK_mul baseK_on_curve, ← pow_add, show 8 + 8 * w = 8 * (w + 1) by ring]
    exact ⟨hv', rfl⟩

theorem multipleOf_spec {q : Point} (h : ValidPoint q) : ∀ j,
    ValidPoint (multipleOf q j) ∧ affK (multipleOf q j) = mulK (j + 1) (affK q)
  | 0 => by rw [multipleOf, mulK_one]; exact ⟨h, rfl⟩
  | j + 1 => by
    obtain ⟨hv, ha⟩ := multipleOf_spec h j
    obtain ⟨hv', ha'⟩ := pointAdd_spec hv h
    rw [multipleOf, ha', ha, mulK_succ (j + 1)]
    exact ⟨hv', rfl⟩

theorem normalise_spec {q : Point} (h : ValidPoint q) :
    ValidPoint (normalise q) ∧ affK (normalise q) = affK q := by
  have hc := affK_on_curve h
  have hx : ((normalise q).X : K) = (affK q).1 := by
    simp [normalise, affK, cast_finv, div_eq_mul_inv]
  have hy : ((normalise q).Y : K) = (affK q).2 := by
    simp [normalise, affK, cast_finv, div_eq_mul_inv]
  have hz : ((normalise q).Z : K) = 1 := by simp [normalise]
  have ht : ((normalise q).T : K) = (affK q).1 * (affK q).2 := by
    rw [← hx, ← hy]; simp only [normalise, cast_fmul]
  constructor
  · rw [validPoint_iff, hx, hy, hz, ht]
    refine ⟨one_ne_zero, by ring, ?_⟩
    rw [CurveK] at hc
    linear_combination hc
  · rw [affK, hx, hy, hz, div_one, div_one]

/-- An entry of the table (44_fixed_base.md R130, R131). -/
theorem tbl_spec (w j : Nat) :
    ValidPoint (tbl w j) ∧ affK (tbl w j) = mulK ((j + 1) * 2 ^ (8 * w)) baseK := by
  obtain ⟨hr, har⟩ := rung_spec w
  obtain ⟨hm, ham⟩ := multipleOf_spec hr j
  obtain ⟨hn, han⟩ := normalise_spec hm
  exact ⟨hn, by rw [tbl, han, ham, har, mulK_mul baseK_on_curve]⟩

/-- One turn of the multiplier's loop: with d = t - 256·carry, adding the digit's entry and then
256·carry times the window's base is adding t times that base (44_fixed_base.md R136). -/
theorem accumulate_spec {acc : Point} (h : ValidPoint acc) (w : Nat) (d : Int) (t c : Nat)
    (hd : d = t - 256 * c) :
    ValidPoint (accumulate w d acc) ∧
      addK (affK (accumulate w d acc)) (mulK (256 * c * 2 ^ (8 * w)) baseK) =
        addK (affK acc) (mulK (t * 2 ^ (8 * w)) baseK) := by
  have hb := baseK_on_curve
  have ca := affK_on_curve h
  have cm := fun n => mulK_on_curve hb n
  unfold accumulate
  split
  · next hpos =>
    obtain ⟨hv, ha⟩ := tbl_spec w (d.toNat - 1)
    obtain ⟨hv', ha'⟩ := pointAdd_spec h hv
    refine ⟨hv', ?_⟩
    rw [ha', ha, addK_assoc ca (cm _) (cm _), ← mulK_add hb, ← Nat.add_mul]
    congr 3; omega
  · split
    · next hneg =>
      obtain ⟨hv, ha⟩ := tbl_spec w ((-d).toNat - 1)
      obtain ⟨hn, han⟩ := pointNeg_spec hv
      obtain ⟨hv', ha'⟩ := pointAdd_spec h hn
      refine ⟨hv', ?_⟩
      have e : 256 * c * 2 ^ (8 * w) = ((-d).toNat - 1 + 1) * 2 ^ (8 * w) + t * 2 ^ (8 * w) := by
        rw [← Nat.add_mul]; congr 1; omega
      have cn := CurveK_neg (cm (((-d).toNat - 1 + 1) * 2 ^ (8 * w)))
      rw [ha', han, ha, e, mulK_add hb, addK_assoc ca cn (addK_on_curve (cm _) (cm _)),
        ← addK_assoc cn (cm _) (cm _), addK_comm (-_, _), addK_neg (cm _), zero_addK]
    · next h1 h2 =>
      refine ⟨h, ?_⟩
      congr 3; omega

omit [Fact P.Prime] in
theorem scalarByte_le (s w : Nat) : scalarByte s w ≤ 255 := by
  unfold scalarByte; split
  · omega
  · omega

/-- The carry out of the last of n windows from w on, with the carry into window w. -/
def carryOut (s : Nat) : Nat → Nat → Nat → Nat
  | 0, _, carry => carry
  | n + 1, w, carry => carryOut s n (w + 1) (if scalarByte s w + carry > 128 then 1 else 0)

omit [Fact P.Prime] in
theorem carryOut_succ (s n w carry : Nat) : carryOut s (n + 1) w carry =
    carryOut s n (w + 1) (if scalarByte s w + carry > 128 then 1 else 0) := rfl

/-- What the bytes of n windows from w on are worth. -/
def bytesFrom (s : Nat) : Nat → Nat → Nat
  | 0, _ => 0
  | n + 1, w => scalarByte s w * 2 ^ (8 * w) + bytesFrom s n (w + 1)

/-- The loop from window w on adds what the remaining bytes and the carry are worth, less the carry out
of its last window. -/
theorem mulBaseFrom_spec (s : Nat) : ∀ (n w carry : Nat) (acc : Point), carry ≤ 1 → ValidPoint acc →
    ValidPoint (mulBaseFrom w (recode s n w carry) acc) ∧
      addK (affK (mulBaseFrom w (recode s n w carry) acc))
          (mulK (carryOut s n w carry * 2 ^ (8 * (w + n))) baseK) =
        addK (affK acc) (mulK (carry * 2 ^ (8 * w) + bytesFrom s n w) baseK)
  | 0, w, carry, acc, _, hv => ⟨hv, by simp [recode, mulBaseFrom, carryOut, bytesFrom]⟩
  | n + 1, w, carry, acc, hc, hv => by
    have hb := baseK_on_curve
    have cm := fun n => mulK_on_curve hb n
    have hbyte := scalarByte_le s w
    -- the digit and the carry out of window w
    obtain ⟨d, c, hrec, hcarry, hd, hc1⟩ : ∃ (d : Int) (c : Nat),
        recode s (n + 1) w carry = d :: recode s n (w + 1) c ∧
        carryOut s (n + 1) w carry = carryOut s n (w + 1) c ∧
        d = ((scalarByte s w + carry : Nat) : Int) - 256 * c ∧ c ≤ 1 := by
      by_cases h : scalarByte s w + carry > 128
      · exact ⟨((scalarByte s w + carry : Nat) : Int) - 256, 1, by simp only [recode, h, if_true], by simp only [carryOut, h, if_true],
          by simp, le_refl _⟩
      · exact ⟨((scalarByte s w + carry : Nat) : Int), 0, by simp only [recode, h, if_false], by simp only [carryOut, h, if_false],
          by simp, by omega⟩
    obtain ⟨hv1, ha1⟩ := accumulate_spec hv w d (scalarByte s w + carry) c hd
    obtain ⟨hv2, ha2⟩ := mulBaseFrom_spec s n (w + 1) c (accumulate w d acc) hc1 hv1
    rw [hrec, hcarry, mulBaseFrom]
    refine ⟨hv2, ?_⟩
    have e1 : w + (n + 1) = w + 1 + n := by omega
    have e2 : c * 2 ^ (8 * (w + 1)) = 256 * c * 2 ^ (8 * w) := by ring
    rw [e1, ha2, e2, mulK_add hb, ← addK_assoc (affK_on_curve hv1) (cm _) (cm _), ha1,
      addK_assoc (affK_on_curve hv) (cm _) (cm _), ← mulK_add hb, bytesFrom]
    congr 2; ring

omit [Fact P.Prime] in
theorem carryOut_snoc (s : Nat) : ∀ (n w carry : Nat),
    carryOut s (n + 1) w carry = carryOut s 1 (w + n) (carryOut s n w carry)
  | 0, w, carry => by simp [carryOut]
  | n + 1, w, carry => by
    show carryOut s (n + 1) (w + 1) _ = _
    rw [carryOut_snoc s n (w + 1), show w + 1 + n = w + (n + 1) by omega, carryOut_succ s n w carry]

omit [Fact P.Prime] in
theorem carryOut_le_one (s : Nat) : ∀ (n w carry : Nat), carry ≤ 1 → carryOut s n w carry ≤ 1
  | 0, _, _, h => h
  | n + 1, w, carry, _ => carryOut_le_one s n (w + 1) _ (by split <;> omega)

omit [Fact P.Prime] in
/-- The final carry is 0 (44_fixed_base.md R133). -/
theorem carryOut_final (s : Nat) : carryOut s 33 0 0 = 0 := by
  have h := carryOut_le_one s 32 0 0 (by omega)
  rw [carryOut_snoc s 32, carryOut, carryOut, if_neg]
  have : scalarByte s (0 + 32) = 0 := rfl
  omega

omit [Fact P.Prime] in
theorem bytesFrom_eq (s : Nat) (hs : s < 2 ^ 256) : ∀ n w, w + n = 33 →
    bytesFrom s n w = s / 2 ^ (8 * w) * 2 ^ (8 * w)
  | 0, w, h => by
    have : w = 33 := by omega
    subst this
    rw [bytesFrom, Nat.div_eq_of_lt (lt_trans hs (Nat.pow_lt_pow_right (by omega) (by omega))), Nat.zero_mul]
  | n + 1, w, h => by
    have hbyte : scalarByte s w = s / 2 ^ (8 * w) % 256 := by
      unfold scalarByte
      split
      · rfl
      · have : w = 32 := by omega
        subst this
        rw [Nat.div_eq_of_lt hs]
    have hdiv : s / 2 ^ (8 * (w + 1)) = s / 2 ^ (8 * w) / 256 := by
      rw [Nat.div_div_eq_div_mul, show 8 * (w + 1) = 8 * w + 8 by ring, pow_add]; norm_num
    rw [bytesFrom, bytesFrom_eq s hs n (w + 1) (by omega), hbyte, hdiv,
      show 8 * (w + 1) = 8 * w + 8 by ring, pow_add]
    have := Nat.div_add_mod (s / 2 ^ (8 * w)) 256
    calc _ = (256 * (s / 2 ^ (8 * w) / 256) + s / 2 ^ (8 * w) % 256) * 2 ^ (8 * w) := by ring
      _ = _ := by rw [this]

/-- The multiplier's result: a valid point, whose affine pair is the scalar times the base point's
(44_fixed_base.md R134, R136). -/
theorem mulBase_spec (s : Nat) (hs : s < 2 ^ 256) :
    ValidPoint (mulBase s) ∧ affK (mulBase s) = mulK s baseK := by
  obtain ⟨hv, ha⟩ := mulBaseFrom_spec s 33 0 0 identity (by omega) valid_identity
  refine ⟨hv, ?_⟩
  rw [carryOut_final, affK_identity, zero_addK, bytesFrom_eq s hs 33 0 (by omega)] at ha
  rw [Nat.zero_mul, Nat.zero_mul, Nat.zero_add, mulK_zero, addK_zero, Nat.mul_zero, pow_zero,
    Nat.div_one, Nat.mul_one] at ha
  exact ha

end Sys2Proof.Laws
end

