-- ==== Sys2Proof/Laws/Ladder.lean ====
section
/-! SUPPORT. What the ladder does (46_x25519_ladder.md): the conditional swap as a branch, and the
ladder on the curve as a multiple in the affine group. -/

namespace Sys2Proof.Laws

set_option Elab.async false

open Sys2Proof.Machine

/-! ## The conditional swap (46_x25519_ladder.md R162) -/

theorem cswap_false (a b : Nat) : cswap false a b = (a, b) := by
  have h : swapMask false = 0 := by decide +kernel
  rw [cswap, h, Nat.zero_and, Nat.xor_zero, Nat.xor_zero]

theorem cswap_true {a b : Nat} (ha : a < 2 ^ 256) (hb : b < 2 ^ 256) : cswap true a b = (b, a) := by
  have h : swapMask true = 2 ^ 256 - 1 := by decide +kernel
  have hx : (2 ^ 256 - 1) &&& (a ^^^ b) = a ^^^ b := by
    rw [Nat.and_comm, Nat.and_two_pow_sub_one_eq_mod, Nat.mod_eq_of_lt (Nat.xor_lt_two_pow ha hb)]
  rw [cswap, h]
  simp only [hx]
  rw [← Nat.xor_assoc, Nat.xor_self, Nat.zero_xor, Nat.xor_comm a b, ← Nat.xor_assoc, Nat.xor_self,
    Nat.zero_xor]

/-- Every coordinate is a canonical number. -/
def Canonical (q : Pairs) : Prop := q.x2 < P ∧ q.z2 < P ∧ q.x3 < P ∧ q.z3 < P

/-- The exchanged pairs. -/
def exchange (q : Pairs) : Pairs := { x2 := q.x3, z2 := q.z3, x3 := q.x2, z3 := q.z2 }

theorem exchange_exchange (q : Pairs) : exchange (exchange q) = q := rfl

theorem exchange_canonical {q : Pairs} (h : Canonical q) : Canonical (exchange q) :=
  ⟨h.2.2.1, h.2.2.2, h.1, h.2.1⟩

theorem swapPairs_false (q : Pairs) : swapPairs false q = q := by
  simp only [swapPairs, cswap_false]

theorem swapPairs_true {q : Pairs} (h : Canonical q) : swapPairs true q = exchange q := by
  obtain ⟨h1, h2, h3, h4⟩ := h
  simp only [swapPairs, cswap_true (h1.trans P_lt_word) (h3.trans P_lt_word),
    cswap_true (h2.trans P_lt_word) (h4.trans P_lt_word), exchange]

theorem swapPairs_canonical {q : Pairs} (b : Bool) (h : Canonical q) : Canonical (swapPairs b q) := by
  cases b
  · rw [swapPairs_false]; exact h
  · rw [swapPairs_true h]; exact exchange_canonical h

theorem ladderStep_canonical (x1 : Nat) (q : Pairs) : Canonical (ladderStep x1 q) :=
  ⟨fmul_lt _ _, fmul_lt _ _, fsq_lt _, fmul_lt _ _⟩

/-- One turn of the reference ladder. -/
def branchingTurn (b : Bool) (x1 : Nat) (q : Pairs) : Pairs :=
  if b then exchange (ladderStep x1 (exchange q)) else ladderStep x1 q

theorem branchingTurn_canonical (b : Bool) (x1 : Nat) (q : Pairs) :
    Canonical (branchingTurn b x1 q) := by
  cases b
  · exact ladderStep_canonical x1 q
  · exact exchange_canonical (ladderStep_canonical x1 _)

/-- The ladder over the model's own step, with a branch in place of the conditional swap: bits t - 1
down to 0 of k. -/
def ladderTurns (k x1 : Nat) : Nat → Pairs → Pairs
  | 0, q => q
  | t + 1, q => ladderTurns k x1 t (branchingTurn (k.testBit t) x1 q)

theorem ladderTurns_succ (k x1 t : Nat) (q : Pairs) : ladderTurns k x1 (t + 1) q =
    ladderTurns k x1 t (branchingTurn (k.testBit t) x1 q) := rfl

/-- The loop with its deferred swap is the loop with a branch (46_x25519_ladder.md R162, R164). -/
theorem ladderFrom_eq (k : Word) (x1 : Nat) : ∀ (n : Nat) (b : Bool) {q : Pairs}, Canonical q →
    ladderFrom k x1 n b q = ladderTurns k.toNat x1 n (swapPairs b q)
  | 0, _, _, _ => rfl
  | t + 1, b, q, h => by
    rw [ladderFrom, ladderFrom_eq k x1 t _ (ladderStep_canonical x1 _), ladderTurns_succ]
    have hs := ladderStep_canonical x1
    congr 1
    rw [show k.getLsbD t = k.toNat.testBit t from rfl]
    cases k.toNat.testBit t <;> cases b
    · simp only [swapPairs_false, branchingTurn, Bool.xor_false, Bool.false_eq_true, if_false]
    · simp only [swapPairs_false, branchingTurn, Bool.xor_false, Bool.false_eq_true, if_false]
    · simp only [swapPairs_false, swapPairs_true h, swapPairs_true (hs _), branchingTurn,
        Bool.xor_true, Bool.not_false, if_true]
    · simp only [swapPairs_true h, branchingTurn, Bool.xor_true, Bool.not_true, swapPairs_false,
        swapPairs_true (hs _), exchange_exchange, if_true]

/-- The pairs the loop ends with. -/
def ladderEnd (k u : Nat) : Pairs := ladderTurns k u 255 { x2 := 1, z2 := 0, x3 := u % P, z3 := 1 }

theorem ladder_eq (kraw uraw : Word) : ladder kraw uraw =
    fmul (ladderEnd (clamp kraw).toNat (uraw.toNat % 2 ^ 255)).x2
      (finv (ladderEnd (clamp kraw).toNat (uraw.toNat % 2 ^ 255)).z2) := by
  have hP := P_prime.one_lt
  have hc : Canonical { x2 := 1, z2 := 0, x3 := uraw.toNat % 2 ^ 255 % P, z3 := 1 } :=
    ⟨hP, P_pos, Nat.mod_lt _ P_pos, hP⟩
  rw [ladder, ladderFrom_eq _ _ _ _ hc, swapPairs_false]
  rfl

/-! ## The reference ladder (46_x25519_ladder.md R163) -/

/-- The pairs as integers. -/
def toInts (q : Pairs) : IntPairs := { x2 := q.x2, z2 := q.z2, x3 := q.x3, z3 := q.z3 }

/-- A canonical number is the residue of every integer it equals in the field. -/
theorem natCast_eq_emod {a : Nat} {b : Int} (ha : a < P) (h : (a : K) = (b : K)) :
    (a : Int) = b % (2 ^ 255 - 19) := by
  have h' : ((a : Int) : K) = ((b : Int) : K) := by rw [Int.cast_natCast]; exact h
  rw [ZMod.intCast_eq_intCast_iff] at h'
  rw [show (2 ^ 255 - 19 : Int) = (P : Int) by decide +kernel, ← h',
    Int.emod_eq_of_lt (Int.natCast_nonneg a) (Int.ofNat_lt.2 ha)]

/-- The model's step is the step of R163 written out over the integers. -/
theorem toInts_ladderStep (x1 : Nat) (q : Pairs) :
    toInts (ladderStep x1 q) = referenceStep x1 (toInts q) := by
  obtain ⟨h1, h2, h3, h4⟩ := ladderStep_canonical x1 q
  simp only [toInts, referenceStep, IntPairs.mk.injEq]
  refine ⟨natCast_eq_emod h1 ?_, natCast_eq_emod h2 ?_, natCast_eq_emod h3 ?_,
    natCast_eq_emod h4 ?_⟩ <;>
    simp only [ladderStep, cast_fmul, cast_fsq, cast_fadd, cast_fsub, A24] <;> push_cast <;> ring

/-- The two branching ladders agree. -/
theorem toInts_ladderTurns (k x1 : Nat) : ∀ (n : Nat) (q : Pairs),
    toInts (ladderTurns k x1 n q) = branchingLadder k x1 n (toInts q)
  | 0, _ => rfl
  | t + 1, q => by
    rw [ladderTurns, toInts_ladderTurns k x1 t, branchingLadder, branchingTurn,
      Nat.testBit_eq_decide_div_mod_eq]
    congr 1
    by_cases h : k / 2 ^ t % 2 = 1
    · rw [if_pos h, if_pos (decide_eq_true h)]
      exact congrArg (fun r : IntPairs => (⟨r.x3, r.z3, r.x2, r.z2⟩ : IntPairs))
        (toInts_ladderStep x1 (exchange q))
    · rw [if_neg h, if_neg (by simpa using h)]
      exact toInts_ladderStep x1 q

/-! ## The ladder on the curve -/

variable [Fact P.Prime]

/-- `(x : z)` stands for a curve point: it is `(1 + y : 1 - y)` up to a factor. -/
def Rep (x z : Nat) (a : K × K) : Prop :=
  ∃ l : K, l ≠ 0 ∧ (x : K) = l * (1 + a.2) ∧ (z : K) = l * (1 - a.2)

/-- d = -121665/121666, in the form the ladder's constant A24 needs (46_x25519_ladder.md R161). -/
theorem dK_A24 : 121666 * dK = -121665 := by
  have h : ((121666 * D + 121665 : Nat) : K) = 0 := by rw [cast_eq_zero_iff]; decide +kernel
  push_cast at h
  linear_combination h

theorem dK_succ : 121666 * (dK + 1) = 1 := by linear_combination dK_A24

theorem dK_succ_ne : dK + 1 ≠ 0 := by
  intro h
  have := dK_succ
  rw [h, mul_zero] at this
  exact zero_ne_one this

/-- The first half of a step doubles. -/
theorem step_double {x1 : Nat} {q : Pairs} {a : K × K} (ha : CurveK a) (h : Rep q.x2 q.z2 a) :
    Rep (ladderStep x1 q).x2 (ladderStep x1 q).z2 (addK a a) := by
  obtain ⟨l, hl, hx, hz⟩ := h
  have hden := denom_sub_ne ha ha
  have hdy := dysq_ne a.2
  have hs := dK_succ
  have h121666 : (121666 : K) ≠ 0 := left_ne_zero_of_mul (hs.trans_ne one_ne_zero)
  rw [CurveK] at ha
  have hy : (addK a a).2 * (1 - dK * a.1 * a.1 * a.2 * a.2) = a.2 * a.2 + a.1 * a.1 :=
    div_mul_cancel₀ _ hden
  have two := two_ne_zero_K
  have hk : (121666 : K) * ((dK * a.2 ^ 2 + 1) * (1 + a.1 ^ 2)) = a.2 ^ 2 := by
    linear_combination (-121666) * ha + a.2 ^ 2 * hs
  refine ⟨2 ^ 3 * 121666 * l ^ 4 * (1 - dK * a.1 * a.1 * a.2 * a.2) * (dK * a.2 ^ 2 + 1),
    mul_ne_zero (mul_ne_zero (mul_ne_zero (mul_ne_zero (pow_ne_zero _ two) h121666)
      (pow_ne_zero _ hl)) hden) hdy, ?_, ?_⟩
  · simp only [ladderStep, cast_fmul, cast_fsq, cast_fadd, cast_fsub, hx, hz]
    linear_combination (-16 * l ^ 4) * hk -
      8 * 121666 * l ^ 4 * (dK * a.2 ^ 2 + 1) * (hy + ha)
  · simp only [ladderStep, cast_fmul, cast_fsq, cast_fadd, cast_fsub, hx, hz, A24, Nat.cast_ofNat]
    linear_combination 8 * 121666 * l ^ 4 * (dK * a.2 ^ 2 + 1) * (hy - ha) -
      16 * l ^ 4 * (1 - a.2 ^ 2) * a.2 ^ 2 * dK_A24

/-- The two products the differential addition rests on: with b + a and b - a,
(1 + y₊)(1 + y₋) : (1 - y₊)(1 - y₋) is (y_b + y_a)² : (y_b - y_a)². -/
theorem differential {a b : K × K} (ha : CurveK a) (hb : CurveK b) : ∃ c : K, c ≠ 0 ∧
    (1 + (addK a b).2) * (1 + (addK b (-a.1, a.2)).2) = c * (b.2 + a.2) ^ 2 ∧
    (1 - (addK a b).2) * (1 - (addK b (-a.1, a.2)).2) = c * (b.2 - a.2) ^ 2 := by
  have hm := denom_sub_ne ha hb
  have hp := denom_add_ne ha hb
  have e1 : (addK a b).2 * (1 - dK * a.1 * b.1 * a.2 * b.2) = a.2 * b.2 + a.1 * b.1 :=
    div_mul_cancel₀ _ hm
  have e2 : (addK b (-a.1, a.2)).2 * (1 + dK * a.1 * b.1 * a.2 * b.2) = a.2 * b.2 - a.1 * b.1 := by
    have : 1 - dK * b.1 * (-a.1) * b.2 * a.2 = 1 + dK * a.1 * b.1 * a.2 * b.2 := by ring
    rw [addK]
    simp only [this]
    rw [div_mul_cancel₀ _ hp]
    ring
  have da := dysq_ne a.2
  have db := dysq_ne b.2
  have dab := dysq_ne (a.2 * b.2)
  have hd := dK_succ_ne
  have xa : (dK * a.2 ^ 2 + 1) * a.1 ^ 2 = a.2 ^ 2 - 1 := by rw [CurveK] at ha; linear_combination -ha
  have xb : (dK * b.2 ^ 2 + 1) * b.1 ^ 2 = b.2 ^ 2 - 1 := by rw [CurveK] at hb; linear_combination -hb
  have hX : (dK * a.2 ^ 2 + 1) * (dK * b.2 ^ 2 + 1) * (a.1 * b.1) ^ 2 =
      (a.2 ^ 2 - 1) * (b.2 ^ 2 - 1) := by
    linear_combination (dK * b.2 ^ 2 + 1) * b.1 ^ 2 * xa + (a.2 ^ 2 - 1) * xb
  generalize (addK a b).2 = y at e1 ⊢
  generalize (addK b (-a.1, a.2)).2 = y' at e2 ⊢
  generalize hm' : 1 - dK * a.1 * b.1 * a.2 * b.2 = m at hm e1
  generalize hp' : 1 + dK * a.1 * b.1 * a.2 * b.2 = n at hp e2
  refine ⟨(dK + 1) * (dK * (a.2 * b.2) ^ 2 + 1) /
    (m * n * ((dK * a.2 ^ 2 + 1) * (dK * b.2 ^ 2 + 1))), ?_, ?_, ?_⟩
  · exact div_ne_zero (mul_ne_zero hd dab) (mul_ne_zero (mul_ne_zero hm hp) (mul_ne_zero da db))
  · have key : (m + (a.2 * b.2 + a.1 * b.1)) * (n + (a.2 * b.2 - a.1 * b.1)) *
        ((dK * a.2 ^ 2 + 1) * (dK * b.2 ^ 2 + 1)) =
        (dK + 1) * (dK * (a.2 * b.2) ^ 2 + 1) * (b.2 + a.2) ^ 2 := by
      rw [← hm', ← hp']
      linear_combination (-(dK * a.2 * b.2 - 1) ^ 2) * hX
    rw [div_mul_eq_mul_div, eq_div_iff (mul_ne_zero (mul_ne_zero hm hp) (mul_ne_zero da db)), ← key,
      ← e1, ← e2]
    ring
  · have key : (m - (a.2 * b.2 + a.1 * b.1)) * (n - (a.2 * b.2 - a.1 * b.1)) *
        ((dK * a.2 ^ 2 + 1) * (dK * b.2 ^ 2 + 1)) =
        (dK + 1) * (dK * (a.2 * b.2) ^ 2 + 1) * (b.2 - a.2) ^ 2 := by
      rw [← hm', ← hp']
      linear_combination (-(dK * a.2 * b.2 + 1) ^ 2) * hX
    rw [div_mul_eq_mul_div, eq_div_iff (mul_ne_zero (mul_ne_zero hm hp) (mul_ne_zero da db)), ← key,
      ← e1, ← e2]
    ring

/-- The second half of a step adds, when x1 stands for the difference. -/
theorem step_add {x1 : Nat} {q : Pairs} {a b : K × K} (ha : CurveK a) (hb : CurveK b)
    (h2 : Rep q.x2 q.z2 a) (h3 : Rep q.x3 q.z3 b)
    (hu : (x1 : K) * (1 - (addK b (-a.1, a.2)).2) = 1 + (addK b (-a.1, a.2)).2)
    (hne : 1 + (addK b (-a.1, a.2)).2 ≠ 0) :
    Rep (ladderStep x1 q).x3 (ladderStep x1 q).z3 (addK a b) := by
  obtain ⟨l, hl, hx2, hz2⟩ := h2
  obtain ⟨m, hm, hx3, hz3⟩ := h3
  obtain ⟨c, hc, e1, e2⟩ := differential ha hb
  have two := two_ne_zero_K
  refine ⟨2 ^ 4 * l ^ 2 * m ^ 2 * (1 + (addK b (-a.1, a.2)).2) / c,
    div_ne_zero (mul_ne_zero (mul_ne_zero (mul_ne_zero (pow_ne_zero _ two) (pow_ne_zero _ hl))
      (pow_ne_zero _ hm)) hne) hc, ?_, ?_⟩
  · simp only [ladderStep, cast_fmul, cast_fsq, cast_fadd, cast_fsub, hx2, hz2, hx3, hz3]
    rw [div_mul_eq_mul_div, eq_div_iff hc]
    linear_combination (-16 * l ^ 2 * m ^ 2) * e1
  · simp only [ladderStep, cast_fmul, cast_fsq, cast_fadd, cast_fsub, hx2, hz2, hx3, hz3]
    rw [div_mul_eq_mul_div, eq_div_iff hc]
    linear_combination (-16 * l ^ 2 * m ^ 2 * x1) * e2 +
      16 * l ^ 2 * m ^ 2 * (1 - (addK a b).2) * hu

/-- The u-coordinate of a curve point; 0 for the identity, as `finv` has it. -/
def uOf (a : K × K) : K := (1 + a.2) / (1 - a.2)

omit [Fact P.Prime] in
theorem neg_addK [Fact P.Prime] (a b : K × K) :
    (-(addK a b).1, (addK a b).2) = addK (-a.1, a.2) (-b.1, b.2) := by
  simp only [addK, Prod.mk.injEq]
  constructor
  · rw [← neg_div]
    congr 1 <;> ring
  · congr 1 <;> ring

/-- One turn keeps: the pairs stand for two consecutive multiples of the point. -/
theorem branchingTurn_rep {x1 : Nat} {q : Pairs} {p : K × K} (hp : CurveK p)
    (hu : (x1 : K) * (1 - p.2) = 1 + p.2) (hne : 1 + p.2 ≠ 0) (n : Nat) (bit : Bool)
    (h2 : Rep q.x2 q.z2 (mulK n p)) (h3 : Rep q.x3 q.z3 (mulK (n + 1) p)) :
    Rep (branchingTurn bit x1 q).x2 (branchingTurn bit x1 q).z2 (mulK (2 * n + bit.toNat) p) ∧
    Rep (branchingTurn bit x1 q).x3 (branchingTurn bit x1 q).z3 (mulK (2 * n + bit.toNat + 1) p) := by
  have cn := mulK_on_curve hp n
  have cn1 := mulK_on_curve hp (n + 1)
  -- the difference of the two multiples is the point
  have hdiff : addK (mulK (n + 1) p) (-(mulK n p).1, (mulK n p).2) = p := by
    rw [mulK_succ, addK_comm (mulK n p), addK_assoc hp cn (CurveK_neg cn), addK_neg cn, addK_zero]
  have hdiff' : addK (mulK n p) (-(mulK (n + 1) p).1, (mulK (n + 1) p).2) = (-p.1, p.2) := by
    rw [mulK_succ, neg_addK, ← addK_assoc cn (CurveK_neg cn) (CurveK_neg hp), addK_neg cn, zero_addK]
  cases bit
  · have e0 : mulK (2 * n + false.toNat) p = addK (mulK n p) (mulK n p) := by
      rw [← mulK_add hp, Bool.toNat_false]; congr 1; omega
    have e1 : mulK (2 * n + false.toNat + 1) p = addK (mulK n p) (mulK (n + 1) p) := by
      rw [← mulK_add hp, Bool.toNat_false]; congr 1; omega
    rw [e0, e1]
    exact ⟨step_double cn h2, step_add cn cn1 h2 h3 (by rw [hdiff]; exact hu) (by rw [hdiff]; exact hne)⟩
  · have e0 : mulK (2 * n + true.toNat) p = addK (mulK (n + 1) p) (mulK n p) := by
      rw [← mulK_add hp, Bool.toNat_true]; congr 1; omega
    have e1 : mulK (2 * n + true.toNat + 1) p = addK (mulK (n + 1) p) (mulK (n + 1) p) := by
      rw [← mulK_add hp, Bool.toNat_true]; congr 1; omega
    rw [e0, e1]
    exact ⟨step_add (q := exchange q) cn1 cn h3 h2 (by rw [hdiff']; exact hu)
      (by rw [hdiff']; exact hne), step_double (x1 := x1) (q := exchange q) cn1 h3⟩

/-- The loop keeps it: from the multiples n and n + 1, the bits below t of k lead to the multiple
n·2^t + k mod 2^t. -/
theorem ladderTurns_rep {x1 : Nat} {p : K × K} (hp : CurveK p)
    (hu : (x1 : K) * (1 - p.2) = 1 + p.2) (hne : 1 + p.2 ≠ 0) (k : Nat) :
    ∀ (t n : Nat) (q : Pairs), Rep q.x2 q.z2 (mulK n p) → Rep q.x3 q.z3 (mulK (n + 1) p) →
      Rep (ladderTurns k x1 t q).x2 (ladderTurns k x1 t q).z2
        (mulK (n * 2 ^ t + k % 2 ^ t) p)
  | 0, n, q, h2, _ => by
    rw [ladderTurns, pow_zero, Nat.mod_one, Nat.mul_one, Nat.add_zero]; exact h2
  | t + 1, n, q, h2, h3 => by
    obtain ⟨h2', h3'⟩ := branchingTurn_rep hp hu hne n (k.testBit t) h2 h3
    have ih := ladderTurns_rep hp hu hne k t _ _ h2' h3'
    rw [ladderTurns_succ]
    have e : n * 2 ^ (t + 1) + k % 2 ^ (t + 1) =
        (2 * n + (k.testBit t).toNat) * 2 ^ t + k % 2 ^ t := by
      have hb : (k.testBit t).toNat = k / 2 ^ t % 2 := by
        rw [Nat.testBit_eq_decide_div_mod_eq]
        rcases Nat.mod_two_eq_zero_or_one (k / 2 ^ t) with h | h <;> rw [h] <;> rfl
      rw [hb, Nat.mod_pow_succ, pow_succ]
      ring
    rw [e]
    exact ih

/-- `Ladder` on the u-coordinate of a curve point, other than the identity and the point of order 2, is
the u-coordinate of the clamped multiple of that point (46_x25519_ladder.md R164). -/
theorem ladder_spec {p : K × K} (hp : CurveK p) (kraw uraw : Word)
    (hu : ((uraw.toNat % 2 ^ 255 : Nat) : K) * (1 - p.2) = 1 + p.2) (hne : 1 + p.2 ≠ 0) :
    ((ladder kraw uraw : Nat) : K) = uOf (mulK (clamp kraw).toNat p) := by
  have two := two_ne_zero_K
  have hne' : 1 - p.2 ≠ 0 := by
    intro h
    rw [h, mul_zero] at hu
    exact hne hu.symm
  have h2 : Rep 1 0 (mulK 0 p) := by
    rw [mulK_zero]
    refine ⟨1 / 2, div_ne_zero one_ne_zero two, ?_, ?_⟩
    · rw [Nat.cast_one]; field_simp; norm_num
    · rw [Nat.cast_zero]; ring
  have h3 : Rep (uraw.toNat % 2 ^ 255 % P) 1 (mulK (0 + 1) p) := by
    rw [Nat.zero_add, mulK_one]
    refine ⟨1 / (1 - p.2), div_ne_zero one_ne_zero hne', ?_, ?_⟩
    · rw [cast_mod_P, div_mul_eq_mul_div, one_mul, eq_div_iff hne', hu]
    · rw [Nat.cast_one, div_mul_cancel₀ _ hne']
  have h := ladderTurns_rep hp hu hne (clamp kraw).toNat 255 0
    { x2 := 1, z2 := 0, x3 := uraw.toNat % 2 ^ 255 % P, z3 := 1 } h2 h3
  rw [Nat.zero_mul, Nat.zero_add, Nat.mod_eq_of_lt (clamp_lt kraw)] at h
  obtain ⟨l, hl, hx, hz⟩ := h
  rw [ladder_eq, cast_fmul, cast_finv, ladderEnd, hx, hz, uOf, ← div_eq_mul_inv,
    mul_div_mul_left _ _ hl]

end Sys2Proof.Laws
end

