-- ==== Sys2Proof/Laws/PerInstr.lean ====
section
/-! SUPPORT. One lemma per instruction about its encoding: the reserved bit 8 of its word is 0
(30_encoding.md R61, R66). -/

namespace Sys2Proof.Laws.ReservedBit

/-- The word of a well-formed instruction has bit 8 clear. -/
def Statement (i : Instr) : Prop := WellFormed i → bitsOf (encode i) 8 1 = 0

/-- Bit 8 of a command word whose fields are in range. -/
theorem of_fields {op rd ra rb imm : Nat} (hop : op < 256) (hrd : rd < 32) (hra : ra < 32)
    (hrb : rb < 32) (him : imm < 256) : bitsOf (commandWord op rd ra rb imm) 8 1 = 0 :=
  (commandWord_fields hop hrd hra hrb him).2.2.2.2.1

theorem fred (rd ra : WReg) : Statement (.fred rd ra) := fun _ =>
  of_fields (by omega) rd.isLt ra.isLt (by omega) (by omega)
theorem fadd (rd ra rb : WReg) : Statement (.fadd rd ra rb) := fun _ =>
  of_fields (by omega) rd.isLt ra.isLt rb.isLt (by omega)
theorem fsub (rd ra rb : WReg) : Statement (.fsub rd ra rb) := fun _ =>
  of_fields (by omega) rd.isLt ra.isLt rb.isLt (by omega)
theorem fmul (rd ra rb : WReg) : Statement (.fmul rd ra rb) := fun _ =>
  of_fields (by omega) rd.isLt ra.isLt rb.isLt (by omega)
theorem fpsq (rd ra rb : WReg) (k : Nat) : Statement (.fpsq rd ra rb k) := fun h =>
  of_fields (by omega) rd.isLt ra.isLt rb.isLt
    (Nat.lt_succ_of_le (by simpa [WellFormed, Instr.wellFormed] using h))
theorem finv (rd ra : WReg) : Statement (.finv rd ra) := fun _ =>
  of_fields (by omega) rd.isLt ra.isLt (by omega) (by omega)
theorem fsqx (rd ra : WReg) : Statement (.fsqx rd ra) := fun _ =>
  of_fields (by omega) rd.isLt ra.isLt (by omega) (by omega)
theorem fsqrt (rd ra rb : WReg) : Statement (.fsqrt rd ra rb) := fun _ =>
  of_fields (by omega) rd.isLt ra.isLt rb.isLt (by omega)
theorem clamp (rd ra : WReg) : Statement (.clamp rd ra) := fun _ =>
  of_fields (by omega) rd.isLt ra.isLt (by omega) (by omega)
theorem padd (rd ra rb : PView) : Statement (.padd rd ra rb) := fun _ =>
  of_fields (by omega) (by omega) (by omega) (by omega) (by omega)
theorem pdbl (rd ra : PView) : Statement (.pdbl rd ra) := fun _ =>
  of_fields (by omega) (by omega) (by omega) (by omega) (by omega)
theorem smulb (rd : PView) (ra : WReg) : Statement (.smulb rd ra) := fun _ =>
  of_fields (by omega) (by omega) ra.isLt (by omega) (by omega)
theorem pcmp (rd : WReg) (ra : PView) : Statement (.pcmp rd ra) := fun _ =>
  of_fields (by omega) rd.isLt (by omega) (by omega) (by omega)
theorem pdec (rd : PView) (ra : WReg) : Statement (.pdec rd ra) := fun _ =>
  of_fields (by omega) (by omega) ra.isLt (by omega) (by omega)
theorem xlad (rd ra rb : WReg) : Statement (.xlad rd ra rb) := fun _ =>
  of_fields (by omega) rd.isLt ra.isLt rb.isLt (by omega)

end Sys2Proof.Laws.ReservedBit
end

