-- ==== Sys2Proof/Laws/Port.lean ====
section
/-! SUPPORT. The host window and the step, said once: which access reaches which cell, what a register
write leaves, and everything one step can do. -/

namespace Sys2Proof.Machine

set_option Elab.async false

/-! ## Cells of the window (20_memory.md R41, R43) -/

theorem windowCell_command {offset size : Nat} :
    windowCell offset size = .ok .command ↔ size = 4 ∧ offset = 0 := by
  unfold windowCell
  split_ifs <;> simp <;> omega

theorem windowCell_status {offset size : Nat} :
    windowCell offset size = .ok .status ↔ size = 4 ∧ offset = 4 := by
  unfold windowCell
  split_ifs <;> simp <;> omega

theorem windowCell_regWord {offset size : Nat} {i : WReg} {k : Fin 8} :
    windowCell offset size = .ok (.regWord i k) ↔ size = 4 ∧ offset = regOffset i k := by
  unfold windowCell regOffset
  split_ifs <;> simp [Fin.ext_iff] <;> omega

theorem windowCell_regOffset (i : WReg) (k : Fin 8) :
    windowCell (regOffset i k) 4 = .ok (.regWord i k) := windowCell_regWord.2 ⟨rfl, rfl⟩

/-! ## Words and bytes of a register (20_memory.md R42, R45) -/

/-- A register write replaces 32 bits and keeps the other 224. -/
theorem getLsbD_setBusWord (v : Word) (k : Fin 8) (b : BusWord) (n : Nat) (hn : n < 256) :
    (setBusWord v k b).getLsbD n =
      if 32 * k.val ≤ n ∧ n < 32 * k.val + 32 then b.getLsbD (n - 32 * k.val) else v.getLsbD n := by
  have hmask : (BitVec.ofNat 256 0xFFFFFFFF).getLsbD (n - 32 * k.val) =
      decide (n - 32 * k.val < 32) := by
    rw [BitVec.getLsbD_ofNat, show 0xFFFFFFFF = 2 ^ 32 - 1 by norm_num,
      Nat.testBit_two_pow_sub_one]
    simp; omega
  simp only [setBusWord, BitVec.getLsbD_or, BitVec.getLsbD_and, BitVec.getLsbD_not,
    BitVec.getLsbD_shiftLeft, BitVec.getLsbD_setWidth, hmask, hn, decide_true, Bool.true_and]
  by_cases h1 : n < 32 * k.val
  · simp [h1, show ¬ (32 * k.val ≤ n) by omega]
  · by_cases h2 : n < 32 * k.val + 32
    · simp [h1, h2, show n - 32 * k.val < 32 by omega, show n - 32 * k.val < 256 by omega,
        show 32 * k.val ≤ n by omega]
    · have : b.getLsbD (n - 32 * k.val) = false := BitVec.getLsbD_of_ge _ _ (by omega)
      simp [h1, h2, this, show ¬ (n - 32 * k.val < 32) by omega]

theorem getLsbD_busWordOf (v : Word) (k : Fin 8) (n : Nat) (hn : n < 32) :
    (busWordOf v k).getLsbD n = v.getLsbD (32 * k.val + n) := by
  simp [busWordOf, hn]

theorem getLsbD_byteOf (v : Word) (k n : Nat) (hn : n < 8) :
    (byteOf v k).getLsbD n = v.getLsbD (8 * k + n) := by
  simp [byteOf, hn]

/-! ## One step (20_memory.md R49) -/

/-- Everything a step that answers a next state has done. -/
theorem step_cases {s t : State} (h : step s = .next t) :
    (s.port = [] ∧ t = s) ∨
    ∃ e rest, s.port = e :: rest ∧
      ((e = .reset ∧ t = State.externalReset { s with port := rest }) ∨
       (∃ offset v, e = .memRead offset 4 ∧ t = State.reply { s with port := rest } v) ∨
       (∃ i k v, e = .memWrite (regOffset i k) 4 v ∧
          t = State.writeW { s with port := rest } i (setBusWord (s.readW i) k v)) ∨
       (∃ c i, e = .memWrite 0 4 c ∧ decode c = .ok i ∧ exec i { s with port := rest } = .next t) ∨
       (∃ c err, e = .memWrite 0 4 c ∧ decode c = .error err ∧
          t = State.raise { s with port := rest } .illegalCommand)) := by
  rw [step] at h
  split at h
  · next hp => exact .inl ⟨hp, by cases h; rfl⟩
  · next e rest hp =>
    refine .inr ⟨e, rest, hp, ?_⟩
    cases e with
    | reset =>
      rw [acceptEvent] at h
      exact .inl ⟨rfl, (Host.Outcome.next.inj h).symm⟩
    | memRead offset size =>
      simp only [acceptEvent, readTransaction] at h
      split at h
      · cases h
      · cases h
      · next hc =>
        obtain ⟨rfl, rfl⟩ := windowCell_status.1 hc
        cases h
        exact .inr (.inl ⟨_, _, rfl, rfl⟩)
      · next i k hc =>
        obtain ⟨rfl, rfl⟩ := windowCell_regWord.1 hc
        cases h
        exact .inr (.inl ⟨_, _, rfl, rfl⟩)
    | memWrite offset size v =>
      simp only [acceptEvent, writeTransaction] at h
      split at h
      · cases h
      · next hc =>
        obtain ⟨rfl, rfl⟩ := windowCell_command.1 hc
        rw [issueCommand] at h
        split at h
        · next i hd => exact .inr (.inr (.inr (.inl ⟨v, i, rfl, hd, h⟩)))
        · next err hd =>
          cases h
          exact .inr (.inr (.inr (.inr ⟨v, err, rfl, hd, rfl⟩)))
      · cases h
      · next i k hc =>
        obtain ⟨rfl, rfl⟩ := windowCell_regWord.1 hc
        cases h
        exact .inr (.inr (.inl ⟨i, k, v, rfl, rfl⟩))

/-! ## Runs -/

theorem run_of_step (M : Host.Core) {s t : M.State} (n : Nat) (h : M.step s = .next t) :
    M.run (n + 1) s = M.run n t := by
  simp only [Host.Core.run, h]

/-- A run of n + 1 steps is a step and a run of n. -/
theorem core_run_succ {s t : State} (n : Nat) (h : step s = .next t) :
    Sys2Proof.core.run (n + 1) s = Sys2Proof.core.run n t := run_of_step Sys2Proof.core n h

/-- A run of n + 1 steps that answers a next state has taken a first step. -/
theorem core_run_next {s t : State} {n : Nat} (h : Sys2Proof.core.run (n + 1) s = .next t) :
    ∃ u, step s = .next u ∧ Sys2Proof.core.run n u = .next t := by
  cases hs : step s with
  | next u => exact ⟨u, rfl, by rw [← core_run_succ n hs]; exact h⟩
  | fault r => cases r
  | refused r =>
    have hs' : Sys2Proof.core.step s = .refused r := hs
    simp only [Host.Core.run, hs'] at h
    exact nomatch h

/-- What every step keeps, every run keeps. -/
theorem core_run_invariant {Inv : State → Prop}
    (hstep : ∀ s t, Inv s → step s = .next t → Inv t) : ∀ (n : Nat) {s t : State}, Inv s →
    Sys2Proof.core.run n s = .next t → Inv t
  | 0, s, t, hs, h => by
    obtain rfl : s = t := Host.Outcome.next.inj h
    exact hs
  | n + 1, _, _, hs, h => by
    obtain ⟨u, hu, ht⟩ := core_run_next h
    exact core_run_invariant hstep n (hstep _ _ hs hu) ht

end Sys2Proof.Machine
end

