-- ==== Sys2Proof/Tests/Slice0.lean ====
section
/-! SUPPORT. The model's own tests: expected values from 95_test_vectors.md (rows named) and the words of
30_encoding.md, and for every statement with hypotheses a state and operands that meet them. -/

namespace Sys2Proof.Tests

set_option Elab.async false

open Sys2Proof Sys2Proof.Machine

/-- Right after reset, with some registers written and these events waiting. -/
def stateOf (regs : List (WReg × Nat)) (port : List HostEvent) : State :=
  { regs.foldl (fun s p => s.putInt p.1 p.2) State.reset with port := port }

/-- A register, the code and the flag after a command. -/
def after (i : Instr) (regs : List (WReg × Nat)) (r : WReg) : Option (Nat × ResultCode × Bool) :=
  match exec i (stateOf regs []) with
  | .next t => some ((t.readW r).toNat, t.status.code, t.status.zf)
  | .fault _ => none
  | .refused _ => none

/-- A view after a command, with the code. -/
def afterP (i : Instr) (regs : List (WReg × Nat)) (j : PView) : Option (Point × ResultCode) :=
  match exec i (stateOf regs []) with
  | .next t => some (t.readP j, t.status.code)
  | .fault _ => none
  | .refused _ => none

/-- STATUS as a number after one step. -/
def statusAfter (s : State) : Option Nat :=
  match step s with
  | .next t => some (statusWord t.status).toNat
  | .fault _ => none
  | .refused _ => none

/-- The four registers of view 0 holding a point. -/
def inP0 (q : Point) : List (WReg × Nat) := [(0, q.X), (1, q.Y), (2, q.Z), (3, q.T)]
/-- The four registers of view 1 holding a point. -/
def inP1 (q : Point) : List (WReg × Nat) := [(4, q.X), (5, q.Y), (6, q.Z), (7, q.T)]

/-! ## Well-formedness (30_encoding.md R63) -/

theorem test_wellFormed_refuses_count_256 : ¬ WellFormed (.fpsq 0 1 2 256) := by decide
theorem test_wellFormed_accepts_count_255 : WellFormed (.fpsq 31 31 31 255) := by decide

/-! ## Decoding: words written out from 30_encoding.md R61, R64 (95_test_vectors.md section 2.7) -/

theorem test_decode_field : decode 0x10004000 = .ok (.fred 0 1) ∧
    decode 0x11004400 = .ok (.fadd 0 1 2) ∧ decode 0x12FFBA00 = .ok (.fsub 31 30 29) ∧
    decode 0x13184400 = .ok (.fmul 3 1 2) ∧ decode 0x1429080A = .ok (.fpsq 5 4 4 10) ∧
    decode 0x140044FF = .ok (.fpsq 0 1 2 255) := by decide +kernel
theorem test_decode_field_powers : decode 0x15004000 = .ok (.finv 0 1) ∧
    decode 0x16004000 = .ok (.fsqx 0 1) ∧ decode 0x17004400 = .ok (.fsqrt 0 1 2) ∧
    decode 0x20840000 = .ok (.clamp 16 16) := by decide +kernel
theorem test_decode_points : decode 0x30400800 = .ok (.padd 2 0 1) ∧
    decode 0x30E73800 = .ok (.padd 7 7 7) ∧ decode 0x31410000 = .ok (.pdbl 2 1) ∧
    decode 0x40040000 = .ok (.smulb 0 16) := by decide +kernel
theorem test_decode_codec_ladder : decode 0x50880000 = .ok (.pcmp 17 0) ∧
    decode 0x50010000 = .ok (.pcmp 0 1) ∧ decode 0x51244000 = .ok (.pdec 1 17) ∧
    decode 0x60100200 = .ok (.xlad 2 0 1) := by decide +kernel
/-- The same words, built bit by bit: op[31:24] rd[23:19] ra[18:14] rb[13:9] z[8] imm8[7:0]. -/
theorem test_decode_bits :
    decode (0b00010010#8 ++ 0b11111#5 ++ 0b11110#5 ++ 0b11101#5 ++ 0b0#1 ++ 0b00000000#8) =
      .ok (.fsub 31 30 29) ∧
    decode (0b01010001#8 ++ 0b00100#5 ++ 0b10001#5 ++ 0b00000#5 ++ 0b0#1 ++ 0b00000000#8) =
      .ok (.pdec 1 17) := by decide +kernel
theorem test_encode_words : encode (.fsub 31 30 29) = 0x12FFBA00 ∧
    encode (.fpsq 5 4 4 10) = 0x1429080A ∧ encode (.padd 7 7 7) = 0x30E73800 ∧
    encode (.xlad 2 0 1) = 0x60100200 := by decide +kernel
theorem test_decode_table_word : decodeTableWord 32 0x60100200 = some (.xlad 2 0 1) ∧
    decodeTableWord 32 0x60100280 = none := by decide +kernel
/-- The illegal words of section 2.7. -/
theorem test_illegal_words : ([0x00000000, 0xFFFFFFFF, 0x18000000, 0x21000000, 0x32000000,
    0x41000000, 0x52000000, 0x61000000, 0x13184500, 0x13184401, 0x10004400, 0x15004007,
    0x30080000, 0x30408800, 0x30400A00, 0x31410800, 0x40140000, 0x5088C000, 0x51344000,
    0x60100280, 0x1429090A] : List BusWord).all (fun c => (decode c).toOption.isNone) = true := by
  decide +kernel
theorem test_illegal_causes : decode 0x18000000 = .error .unlistedOpcode ∧
    decode 0x13184500 = .error .reservedBit ∧ decode 0x10004400 = .error .unusedField ∧
    decode 0x15004007 = .error .strayImmediate ∧ decode 0x30080000 = .error .pointOperand := by
  decide +kernel
theorem test_pseudo : expandPseudo (.encb 17 0 16) = [.smulb 0 16, .pcmp 17 0] ∧
    expandPseudo (.fsqr 3 4) = [.fmul 3 4 4] ∧
    assembly (.fpsq 5 4 4 10) = "FPSQ w5, w4, w4, 10" := by decide +kernel

/-! ## One command each (95_test_vectors.md sections 2.1 to 2.6) -/

/-- Row F3. -/
theorem test_fred_reduces : after (.fred 0 1) [(1, 2 ^ 256 - 1)] 0 =
    some (37, .ok, false) := by decide +kernel
/-- Row F2. -/
theorem test_fred_of_P : after (.fred 1 1) [(1, P)] 1 =
    some (0, .ok, false) := by decide +kernel
/-- Row F6. -/
theorem test_fadd_257_bits : after (.fadd 0 1 2) [(1, 2 ^ 256 - 1), (2, 2 ^ 256 - 1)] 0 =
    some (74, .ok, false) := by decide +kernel
/-- Row F5. -/
theorem test_fadd_wraps_at_P : after (.fadd 1 1 2) [(1, P - 1), (2, 1)] 1 =
    some (0, .ok, false) := by decide +kernel
/-- Row F9. -/
theorem test_fsub_never_negative : after (.fsub 0 1 2) [(1, 7), (2, 9)] 0 =
    some (P - 2, .ok, false) := by decide +kernel
/-- Row F10. -/
theorem test_fsub_of_P : after (.fsub 0 1 2) [(2, P)] 0 =
    some (0, .ok, false) := by decide +kernel
/-- Row F15. -/
theorem test_fmul_512_bits : after (.fmul 0 1 1) [(1, 2 ^ 256 - 1)] 0 =
    some (1369, .ok, false) := by decide +kernel
/-- Row F13. -/
theorem test_fmul_minus_ones : after (.fmul 0 1 2) [(1, P - 1), (2, P - 1)] 0 =
    some (1, .ok, false) := by decide +kernel
/-- Row F25. -/
theorem test_fpsq_four_squarings : after (.fpsq 0 1 2 4) [(1, 3), (2, 5)] 0 =
    some (215233605, .ok, false) := by decide +kernel
/-- Row F27. -/
theorem test_fpsq_255_squarings : after (.fpsq 0 1 2 255) [(1, 2), (2, 1)] 0 =
    some (1048576, .ok, false) := by decide +kernel
/-- Row F17. -/
theorem test_finv_of_zero : after (.finv 0 1) [(0, 5), (1, P)] 0 =
    some (0, .ok, false) := by decide +kernel
/-- Row F20. -/
theorem test_finv_of_three : after (.finv 0 1) [(1, 3)] 0 =
    some (0x5555555555555555555555555555555555555555555555555555555555555549, .ok, false) := by decide +kernel
/-- Row F33. -/
theorem test_fsqx_of_two : after (.fsqx 0 1) [(1, 2)] 0 =
    some (0x55c1924027e0ef8595a6804c9efdebd397a18c035697f23c62770d93a507504f, .ok, false) := by decide +kernel
/-- Row F37. -/
theorem test_fsqrt_plain_root : after (.fsqrt 0 1 2) [(1, 4), (2, 1)] 0 =
    some (P - 2, .ok, false) := by decide +kernel
/-- Row F38. -/
theorem test_fsqrt_no_root_keeps_destination : after (.fsqrt 0 1 2) [(0, 77), (1, 2), (2, 1)] 0 =
    some (77, .noSquareRoot, false) := by decide +kernel
/-- Row K2. -/
theorem test_clamp_all_ones : after (.clamp 16 16) [(16, 2 ^ 256 - 1)] 16 =
    some (2 ^ 255 - 8, .ok, false) := by decide +kernel
/-- Row K1. -/
theorem test_clamp_zero : after (.clamp 0 1) [] 0 =
    some (2 ^ 254, .ok, false) := by decide +kernel
/-- Row PA2: (4·BX, 4·BY, 4, 4·BT), not B itself. -/
theorem test_padd_identity_and_base : afterP (.padd 2 0 1) (inP0 identity ++ inP1 basePoint) 2 =
    some ({ X := 0x05a4db4f35b94ffb029388c7f75b7171a4b31d8254969ecb2558b5823c97547b,
            Y := 0x1999999999999999999999999999999999999999999999999999999999999999, Z := 4,
            T := 0x1e1d7c3f5e2dd9959ba93a3992af8df483c27e01dd454bd5b77a2ace96df76c5 }, .ok) := by
  decide +kernel
/-- Row PA10, in place: coordinates at or above P act as residues. -/
theorem test_padd_noncanonical_in_place : afterP (.padd 0 0 1)
    (inP0 { X := BX + P, Y := BY + P, Z := 1 + P, T := BT + P } ++ inP1 basePoint) 0 =
    some ({ X := 0x3b6f8891960f6ad45776d1e1213c1bd9de44f888163a76921515e6cf9f3fd67e,
            Y := 0x336d9ece4cdb30925921f40f14dab827d6e156675107378db6d34c9a874a007e,
            Z := 0x59e4ea1a52a20ea2fd9cb81712f675b450b27bff31b598ba722d5b0bf61c8608,
            T := 0x1f6e08da2d298daafc6ea6fedd5e07c172749500483d139bc532c7e392cad989 }, .ok) := by
  decide +kernel
/-- Row PA8: T is not read. -/
theorem test_pdbl_ignores_T : afterP (.pdbl 2 0) (inP0 { basePoint with T := 0 }) 2 =
    some ({ X := 0x31241ddb9a7c254aea224b87b7b0f909886ec1ddfa71625b7aba864c18300a57,
            Y := 0x3324984c6cc933db69b782fc3ac951f60a47aa662bbe321c924b2cd95e2d7fd7,
            Z := 0x6986c5796b577c574098d1fa3b426292ebd36100339299d16374a93d0278de6b,
            T := 0x18247dc974b59c9540e4564048a87e0fa362dabfedf0bb190eb34e071b4d4999 }, .ok) := by
  decide +kernel
/-- Row S5: digits -127 and 1, the whole representative. -/
theorem test_smulb_negative_digit : afterP (.smulb 0 16) [(16, 129)] 0 =
    some ({ X := 0x147f005ae5c0396cbeb0e49f068c460b3bf6c109f6f80772dbedfc5bd0354380,
            Y := 0x5be3bd7e04fe00397c1cb55f84ab807da3abfeeecfbe4cf588b7138f6e7c0ecd,
            Z := 0x110ee66fd35919d1342ef6fcd6968ba6e50e128355ecd20e11c1881650c4ffef,
            T := 0x76f61d6d0b09555186bfc46281cc2c2cb28d2794d748f97867041cc7e5f88df2 }, .ok) := by
  decide +kernel
/-- Row S0: the identity exactly, the scalar's register overwritten with it. -/
theorem test_smulb_zero_over_its_scalar : afterP (.smulb 0 0) [] 0 = some (identity, .ok) := by
  decide +kernel
/-- Section 2.4: TBL[32][127] by its `PCMP` buffer. -/
theorem test_table_last_entry : compress (tbl 32 127) =
    0x97865639fe41846985b1b6d5169fc7d6cd8be8d87abc25bbc6e22f02818a4d86 := by decide +kernel
/-- Row Q4. -/
theorem test_pcmp_negative_base : after (.pcmp 17 0) [(0, P - BX), (1, BY), (2, 1), (3, P - BT)] 17 =
    some (0xe666666666666666666666666666666666666666666666666666666666666658, .ok, false) := by decide +kernel
/-- Row Q6. -/
theorem test_pcmp_of_zero_Z : after (.pcmp 17 0) [(17, 5)] 17 =
    some (0, .ok, false) := by decide +kernel
/-- Row PD11: B's buffer with bit 255 set is -B. -/
theorem test_pdec_sign_bit : afterP (.pdec 1 17)
    [(17, 0xe666666666666666666666666666666666666666666666666666666666666658)] 1 =
    some ({ X := 0x5e96c92c3291ac013f5b1dce022923a396d3389f6ada584d36a9d29f70da2ad3, Y := BY, Z := 1,
            T := 0x1878a0f02874899a9915b1719b541c82df0f607f88aead0a9221754c5a48224a }, .ok) := by
  decide +kernel
/-- Row PD10: a non-canonical y is rejected and the view kept. -/
theorem test_pdec_rejects_noncanonical : afterP (.pdec 1 17) ([(17, P + 1)] ++ inP1 basePoint) 1 =
    some (basePoint, .invalidPoint) := by decide +kernel
/-- Row X3 (RFC 7748's second vector): bit 255 of u is set and ignored. -/
theorem test_xlad_masks_u : after (.xlad 2 0 1)
    [(0, 0xdba18799e16a42cd401eae021641bc1f56a7d959126d25a3c67b4d1d4e9664b),
     (1, 0x93a415c749d54cfc3e3cc06f10e7db312cae38059d95b7f4d3116878120f21e5)] 2 =
    some (0x5779ac7a64f7f8e652a19f79685a598bf873b8b45ce4ad7a7d90e87694decb95, .ok, false) := by
  decide +kernel
/-- Row L2: a low-order u gives 0 and the flag. -/
theorem test_xlad_low_order : after (.xlad 2 0 1)
    [(0, 0x2a2cb91da5fb77b12a99c0eb872f4cdf4566b25172c1163c7da518730a6d0777), (1, 1)] 2 =
    some (0, .ok, true) := by decide +kernel

/-! ## The host port (95_test_vectors.md sections 2.2, 2.8; 20_memory.md) -/

/-- Section 2.8, steps 1, 3 and 4: code 3, code 2, and the flag with code 0. -/
theorem test_status_words :
    statusAfter (stateOf [(1, 2), (2, 1)] [issue 0x17004400]) = some 0x3 ∧
    statusAfter (stateOf [] [issue 0x00000000]) = some 0x2 ∧
    statusAfter (stateOf [(4, 1), (5, 1)] [issue 0x60310A00]) = some 0x10 := by decide +kernel
/-- Section 2.2's byte image: `MemWrite(0x47c, 4, 0x201f1e1d)` sets the top word of w[3]. -/
theorem test_register_write : (match step (stateOf [(3, 5)] [.memWrite 0x47c 4 0x201f1e1d]) with
    | .next t => (t.readW 3).toNat == 0x201f1e1d * 2 ^ 224 + 5
    | _ => false) = true := by decide +kernel
theorem test_register_read : (match step (stateOf [(3, 0x201f1e1d * 2 ^ 224 + 5)]
      [.memRead 0x47c 4]) with
    | .next t => t.replies == [0x201f1e1d]
    | _ => false) = true := by decide +kernel
/-- R43: the refused accesses, each by its name. -/
theorem test_refused_accesses :
    (match step (stateOf [] [.memRead 0x000 4]) with
      | .refused .readOfCommand => true | _ => false) = true ∧
    (match step (stateOf [] [.memWrite 0x004 4 0]) with
      | .refused .writeOfStatus => true | _ => false) = true ∧
    (match step (stateOf [] [.memRead 0x3FC 4]) with
      | .refused (.unmappedOffset 0x3FC) => true | _ => false) = true ∧
    (match step (stateOf [] [.memRead 0x800 4]) with
      | .refused (.unmappedOffset 0x800) => true | _ => false) = true := by decide +kernel
/-- The word placed for the next step is the command it runs. -/
theorem test_withFetchWord : (match step (State.reset.withFetchWord 32 0x20840000) with
    | .next t => (t.readW 16).toNat == 2 ^ 254
    | _ => false) = true := by decide +kernel

/-! ## Witnesses: for every statement with hypotheses, what meets them -/

theorem witness_EncodedCommandsDecodeBack : WellFormed (.fpsq 31 0 31 255) ∧
    WellFormed (.fpsq 0 31 0 0) := by decide
theorem witness_DecodedCommandsEncodeBack : decode 0x30E73800 = .ok (.padd 7 7 7) ∧
    decode 0x140044FF = .ok (.fpsq 0 1 2 255) := by decide +kernel
theorem witness_IllegalWordsOnlySetTheCode :
    (∀ row ∈ ([(0x10000000, 0xFF003FFF), (0x11000000, 0xFF0001FF), (0x12000000, 0xFF0001FF),
        (0x13000000, 0xFF0001FF), (0x14000000, 0xFF000100), (0x15000000, 0xFF003FFF),
        (0x16000000, 0xFF003FFF), (0x17000000, 0xFF0001FF), (0x20000000, 0xFF003FFF),
        (0x30000000, 0xFF18C7FF), (0x31000000, 0xFF18FFFF), (0x40000000, 0xFF183FFF),
        (0x50000000, 0xFF00FFFF), (0x51000000, 0xFF183FFF), (0x60000000, 0xFF0001FF)] :
        List (BusWord × BusWord)), (0x30080000 : BusWord) &&& row.2 ≠ row.1) ∧
    (stateOf [] [.memWrite 0x000 4 0x30080000]).port = .memWrite 0x000 4 0x30080000 :: [] := by
  refine ⟨?_, rfl⟩
  simp only [List.forall_mem_cons, List.not_mem_nil, false_implies, implies_true, and_true]
  decide +kernel
theorem witness_StepRunsTheDecodedCommand :
    (stateOf [] [.memWrite 0x000 4 0x20840000]).port = .memWrite 0x000 4 0x20840000 :: [] ∧
    decode 0x20840000 = .ok (.clamp 16 16) := by decide +kernel
theorem witness_FpsqIsThePowerTimesTheFactor : (0 : Nat) ≤ 255 ∧ (255 : Nat) ≤ 255 := by decide
/-- Both clauses: a source that is 0 modulo P, and one that is not. -/
theorem witness_FinvWritesTheUniqueInverse :
    ((stateOf [(1, P)] []).readW 1).toNat % (2 ^ 255 - 19) = 0 ∧
    ((stateOf [(1, P + 1)] []).readW 1).toNat % (2 ^ 255 - 19) ≠ 0 := by decide +kernel
/-- The three branches: rows F36, F39 and F38. -/
theorem test_fsqrt_branches :
    (after (.fsqrt 0 1 2) [(1, 9), (2, 1)] 0 = some (3, .ok, false)) ∧
    (after (.fsqrt 0 1 2) [(1, P - 1), (2, 1)] 0 = some (SQRTM1, .ok, false)) ∧
    (after (.fsqrt 0 1 2) [(1, 2), (2, 1)] 0 = some (0, .noSquareRoot, false)) := by decide +kernel
/-- Both hypotheses: 9/1 has the root 3, and 1/0 has none (row F42). -/
theorem witness_FsqrtFollowsTheRootFormula :
    (∃ y, ((stateOf [(1, 9), (2, 1)] []).readW 2).toNat * y ^ 2 % (2 ^ 255 - 19) =
      ((stateOf [(1, 9), (2, 1)] []).readW 1).toNat % (2 ^ 255 - 19)) ∧
    ¬ ∃ y, ((stateOf [(1, 1), (2, 0)] []).readW 2).toNat * y ^ 2 % (2 ^ 255 - 19) =
      ((stateOf [(1, 1), (2, 0)] []).readW 1).toNat % (2 ^ 255 - 19) := by
  refine ⟨⟨3, by decide +kernel⟩, ?_⟩
  rintro ⟨y, hy⟩
  have h2 : ((stateOf [(1, 1), (2, 0)] []).readW 2).toNat = 0 := by decide +kernel
  have h1 : ((stateOf [(1, 1), (2, 0)] []).readW 1).toNat % (2 ^ 255 - 19) = 1 := by decide +kernel
  rw [h2, h1, Nat.zero_mul, Nat.zero_mod] at hy
  exact absurd hy (by decide)
theorem witness_ClampSetsAndClearsTheFiveBits : (0 : Nat) < 256 ∧ (254 : Nat) < 256 ∧
    (255 : Nat) < 256 := by decide
theorem witness_ByteImagesRoundTrip : (List.replicate 32 (0xFF : Byte)).length = 32 := by decide
theorem witness_PaddAddsValidPoints :
    ValidPoint ((stateOf (inP0 basePoint ++ inP1 identity) []).readP 0) ∧
    ValidPoint ((stateOf (inP0 basePoint ++ inP1 identity) []).readP 1) := by decide +kernel
theorem witness_PdblDoublesValidPoints :
    ValidPoint ((stateOf (inP0 basePoint) []).readP 0) := by decide +kernel
theorem witness_DigitsRecodeTheScalar : (2 ^ 256 - 1 : Nat) < 2 ^ 256 := by decide +kernel
/-- Both clauses: Z = 0 (row Q6) and a Z that is not 0. -/
theorem witness_PcmpEncodesTheAffinePair :
    ((stateOf [] []).readP 0).Z % (2 ^ 255 - 19) = 0 ∧
    ((stateOf (inP0 basePoint) []).readP 0).Z % (2 ^ 255 - 19) ≠ 0 := by decide +kernel
theorem witness_PcmpSeesExactlyTheClass :
    ValidPoint ((stateOf (inP0 basePoint ++ inP1 (pointAdd identity basePoint)) []).readP 0) ∧
    ValidPoint ((stateOf (inP0 basePoint ++ inP1 (pointAdd identity basePoint)) []).readP 1) := by
  decide +kernel
/-- The clauses at their ends: y = P - 1 is on the curve with x = 0 (row PD4), y = P is out of range
(row PD3), and y = 2 has no x (row PD7). -/
theorem witness_PdecDecodesExactlyTheCurvePoints :
    ((P - 1) % 2 ^ 255 < 2 ^ 255 - 19 ∧ ∃ x, OnCurve x ((P - 1) % 2 ^ 255)) ∧
    ¬ (P % 2 ^ 255 < 2 ^ 255 - 19 ∧ ∃ x, OnCurve x (P % 2 ^ 255)) ∧
    ¬ (2 % 2 ^ 255 < 2 ^ 255 - 19 ∧ ∃ x, OnCurve x (2 % 2 ^ 255)) := by
  refine ⟨⟨by decide +kernel, 0, by unfold OnCurve; decide +kernel⟩, ?_, ?_⟩
  · rintro ⟨h, -⟩
    exact absurd h (by decide +kernel)
  · rintro ⟨-, x, hx⟩
    have : Fact P.Prime := fact_P_prime
    exact Laws.rootOf_none (by decide +kernel) x hx
theorem witness_PdecInvertsPcmp :
    ValidPoint ((stateOf (inP0 basePoint) []).readP 0) := by decide +kernel
/-- Both clauses: the ladder of u = 0 ends with z2 = 0 and the result 0, that of u = 9 does not. -/
theorem witness_XladEqualsTheBranchingLadder :
    (branchingLadder (clamp 9).toNat 0 255 { x2 := 1, z2 := 0, x3 := 0, z3 := 1 }).z2 %
      (2 ^ 255 - 19) = 0 ∧
    (branchingLadder (clamp 9).toNat 9 255 { x2 := 1, z2 := 0, x3 := 9, z3 := 1 }).z2 %
      (2 ^ 255 - 19) ≠ 0 := by
  decide +kernel
/-- The base point and its u = 9 (R166); the point (0, -1) of order 2 and its u = 0, whose even multiples
are the identity, so that the first branch is taken. -/
theorem witness_XladMultipliesOnTheCurve :
    OnCurve BX BY ∧
    (((stateOf [(1, 9)] []).readW 1).toNat % 2 ^ 255 : Nat) * ((1 : Int) - BY) % (2 ^ 255 - 19) =
      (1 + BY) % (2 ^ 255 - 19) ∧
    OnCurve 0 (P - 1) ∧
    (((stateOf [(1, 0)] []).readW 1).toNat % 2 ^ 255 : Nat) * ((1 : Int) - (P - 1 : Nat)) %
      (2 ^ 255 - 19) = (1 + (P - 1 : Nat)) % (2 ^ 255 - 19) := by
  unfold OnCurve; decide +kernel
/-- Scalars that differ in all five masked bits and in bit 255's place, u = 9 and 2^255 + P + 9. -/
theorem witness_XladIgnoresTheMaskedBits :
    (∀ n, 3 ≤ n → n < 254 → ((stateOf [(0, 0), (1, 9)] []).readW 0).getLsbD n =
      ((stateOf [(0, 2 ^ 255 + 2 ^ 254 + 7), (1, 2 ^ 255 + P + 9)] []).readW 0).getLsbD n) ∧
    ((stateOf [(0, 0), (1, 9)] []).readW 1).toNat % 2 ^ 255 % (2 ^ 255 - 19) =
      ((stateOf [(0, 2 ^ 255 + 2 ^ 254 + 7), (1, 2 ^ 255 + P + 9)] []).readW 1).toNat %
        2 ^ 255 % (2 ^ 255 - 19) := by
  constructor
  · have h : ∀ n : Fin 254, 3 ≤ n.val → ((stateOf [(0, 0), (1, 9)] []).readW 0).getLsbD n.val =
        ((stateOf [(0, 2 ^ 255 + 2 ^ 254 + 7), (1, 2 ^ 255 + P + 9)] []).readW 0).getLsbD n.val := by
      decide +kernel
    exact fun n h3 hn => h ⟨n, hn⟩ h3
  · decide +kernel
theorem witness_XladOfZeroUSetsTheFlag :
    ((stateOf [(1, 2 ^ 255 + P)] []).readW 1).toNat % 2 ^ 255 % (2 ^ 255 - 19) = 0 := by
  decide +kernel
/-- Every value of the set is met, also with bit 255 set. -/
theorem witness_XladOfLowOrderUIsZero : ∀ u ∈ lowOrderU,
    ((stateOf [(1, 2 ^ 255 + u)] []).readW 1).toNat % 2 ^ 255 ∈ lowOrderU := by decide +kernel
theorem witness_XladAgreesOnASharedValue : (0 : WReg) ≠ 1 ∧
    (stateOf [(0, 5), (1, 9)] []).readW 1 = 9 ∧ (stateOf [(0, 6), (1, 9)] []).readW 1 = 9 ∧
    (∃ t, exec (.xlad 2 0 1) (stateOf [(0, 5), (1, 9)] []) = .next t) ∧
    ∃ t, exec (.xlad 2 0 1) (stateOf [(0, 6), (1, 9)] []) = .next t :=
  ⟨by decide, by decide +kernel, by decide +kernel, ⟨_, exec_xlad _ _ _ _⟩, ⟨_, exec_xlad _ _ _ _⟩⟩
/-- The first and the last word of the window. -/
theorem witness_RegisterWritesReplaceOneWord :
    (stateOf [] [.memWrite 0x400 4 1]).port =
      .memWrite (0x400 + 32 * (0 : WReg).val + 4 * (0 : Fin 8).val) 4 1 :: [] ∧
    (stateOf [] [.memWrite 0x7FC 4 1]).port =
      .memWrite (0x400 + 32 * (31 : WReg).val + 4 * (7 : Fin 8).val) 4 1 :: [] := by decide +kernel
theorem witness_ReadsReturnTheirWordAndChangeNothing :
    (stateOf [] [.memRead 0x400 4]).port =
      .memRead (0x400 + 32 * (0 : WReg).val + 4 * (0 : Fin 8).val) 4 :: [] ∧
    (stateOf [] [.memRead 0x7FC 4]).port =
      .memRead (0x400 + 32 * (31 : WReg).val + 4 * (7 : Fin 8).val) 4 :: [] ∧
    (stateOf [] [.memRead 0x004 4]).port = .memRead 0x004 4 :: [] := by decide +kernel
theorem witness_StatusWordHasItsLayout : 5 ≤ 5 ∧ 5 ≤ 31 := by decide
/-- A waiting event of each kind. -/
theorem witness_OnlyOtherAccessesAreRefused :
    (stateOf [] [.reset]).port = .reset :: [] ∧
    (stateOf [] [.memRead 0x800 4]).port = .memRead 0x800 4 :: [] ∧
    (stateOf [] [.memWrite 0x7FC 4 0]).port = .memWrite 0x7FC 4 0 :: [] := by decide +kernel
theorem witness_WindowBytesAreLittleEndian : (31 : Nat) < 32 ∧
    (stateOf [] [.memWrite 0x7FC 4 1]).port =
      .memWrite (0x400 + 32 * (31 : WReg).val + 4 * (7 : Fin 8).val) 4 1 :: [] := by decide +kernel
theorem witness_StepsConsumeEventsInOrder :
    (stateOf [] [.memRead 0x004 4, .reset]).port = .memRead 0x004 4 :: [.reset] ∧
    ∃ t, step (stateOf [] [.memRead 0x004 4, .reset]) = .next t := ⟨rfl, _, rfl⟩
theorem witness_ResetClearsStatus : (stateOf [] [.reset]).port = .reset :: [] := rfl
/-- A failing `FSQRT` and a failing `PDEC`. -/
theorem witness_FailedCommandsWriteOnlyTheCode :
    (∃ t, exec (.fsqrt 0 1 2) (stateOf [(1, 2), (2, 1)] []) = .next t ∧ t.status.code ≠ .ok) ∧
    ∃ t, exec (.pdec 1 17) (stateOf [(17, 2)] []) = .next t ∧ t.status.code ≠ .ok :=
  ⟨⟨_, exec_fsqrt_none _ 0 1 2 (by decide +kernel), by decide⟩,
   ⟨_, exec_pdec_none _ 17 1 (by decide +kernel), by decide⟩⟩
/-- A reset of a set flag changes it. -/
theorem witness_OnlyXladWritesZf : ∃ t,
    step { stateOf [] [.reset] with status := { code := .ok, zf := true } } = .next t ∧
    t.status.zf ≠ true :=
  ⟨State.externalReset { stateOf [] [] with status := { code := .ok, zf := true } }, rfl, by decide⟩
theorem witness_ResultsDependOnSourcesOnly : ∀ r ∈ (Instr.fadd 0 1 2).sources,
    (stateOf [(0, 8), (1, 5), (2, 6)] []).readW r = (stateOf [(1, 5), (2, 6)] []).readW r := by
  decide +kernel
theorem witness_FieldSourcesActAsResidues : (Instr.fmul 0 1 2).readsFieldElements = true ∧
    ∀ r ∈ (Instr.fmul 0 1 2).sources,
      ((stateOf [(1, P + 5), (2, 6)] []).readW r).toNat % (2 ^ 255 - 19) =
        ((stateOf [(1, 5), (2, P + 6)] []).readW r).toNat % (2 ^ 255 - 19) := by decide +kernel
theorem witness_ResultsAreCanonical :
    (∃ t, exec (.fred 0 1) (stateOf [(1, P)] []) = .next t ∧ t.status.code = .ok) ∧
    (∀ rd ra, Instr.fred 0 1 ≠ .clamp rd ra) ∧ (∀ rd ra, Instr.fred 0 1 ≠ .pcmp rd ra) :=
  ⟨⟨_, exec_fred _ _ _, rfl⟩, nofun, nofun⟩
/-- One of each transaction, at the ends of the window, an illegal word and a reset. -/
theorem witness_LegalHostsNeverStopTheCore : LegalPort (stateOf []
    [.memWrite 0x400 4 7, .memRead 0x7FC 4, issue 0x60100200, issue 0xFFFFFFFF, .memRead 0x004 4,
      .reset]) := by
  unfold LegalPort; decide +kernel
theorem witness_UnwrittenRegistersAreRetained :
    Retained 5 77 (stateOf [(5, 77)] [issue 0x20840000, .memWrite 0x400 4 7]) ∧
    ∃ t, step (stateOf [(5, 77)] [issue 0x20840000, .memWrite 0x400 4 7]) = .next t :=
  ⟨⟨by decide +kernel, by decide +kernel⟩, _, rfl⟩
/-- Registers that hold the identity in every view. -/
def identities : Vector Word 32 := Vector.ofFn (fun i => if i.val % 4 = 1 ∨ i.val % 4 = 2 then 1 else 0)
theorem witness_PointTrafficKeepsPointsValid :
    PointTraffic { State.afterReset identities with port := [issue 0x30400800] } ∧
    ∃ t, step { State.afterReset identities with port := [issue 0x30400800] } = .next t :=
  ⟨⟨by decide +kernel, by decide +kernel⟩, _, rfl⟩
/-- A register no waiting event can write, with legal events; point traffic to follow the eight `SMULB`;
a reset before them. -/
theorem witness_InvariantsHoldAfterReset :
    (∀ e ∈ [issue 0x20840000, .memWrite 0x400 4 7, .memRead 0x4A0 4], e.legal = true) ∧
    (∀ e ∈ [issue 0x20840000, .memWrite 0x400 4 7, .memRead 0x4A0 4], e.mayWrite 5 = false) ∧
    (∀ e ∈ [issue 0x30400800, .memRead 0x004 4], e.keepsPoints = true) ∧
    (stateOf [] (.reset :: (eightSmulbs (fun _ => 0) ++ [issue 0x30400800]))).port =
      .reset :: (eightSmulbs (fun _ => 0) ++ [issue 0x30400800]) := by decide +kernel

end Sys2Proof.Tests
end

section
/-! The flag `ZF` over a command and over a step (10_state.md R29). -/

namespace Sys2Proof.Machine

variable {i : Instr} {s t : State}

/-- The command that writes `ZF` is `XLAD`. -/
theorem eq_xlad_of_writesZf (hi : i.writesZf = true) : ∃ rd ra rb, i = .xlad rd ra rb := by
  cases i with
  | xlad rd ra rb => exact ⟨rd, ra, rb, rfl⟩
  | _ => simp [Instr.writesZf] at hi

/-- A command that does not write `ZF` leaves it, whether it completes or ends with a code. -/
theorem exec_keeps_zf (hi : i.writesZf = false) (h : exec i s = .next t) :
    t.status.zf = s.status.zf := by
  have of_eq {u : State} (hx : exec i s = .next u) (hu : u.status.zf = s.status.zf) :
      t.status.zf = s.status.zf := Host.Outcome.next.inj (hx.symm.trans h) ▸ hu
  obtain ⟨_, _, -, -, hx⟩ | ⟨_, _, -, -, hx⟩ | ⟨_, _, _, _, rfl, -⟩ | ⟨_, _, _, -, hx⟩ |
    ⟨_, _, -, hx⟩ := exec_cases s i
  · exact of_eq hx rfl
  · exact of_eq hx rfl
  · simp [Instr.writesZf] at hi
  · exact of_eq hx rfl
  · exact of_eq hx rfl

/-- Settles O47: `step_cases` names everything a step does. Idling, reads, register writes and illegal
words leave `ZF`, and so does every command but `XLAD`. -/
theorem onlyXladWritesZf : Obligations.OnlyXladWritesZf := by
  intro s t h hzf
  obtain ⟨-, rfl⟩ | ⟨e, rest, hp, he⟩ := step_cases h
  · exact absurd rfl hzf
  refine ⟨e, rest, hp, ?_⟩
  obtain ⟨rfl, -⟩ | ⟨_, _, -, rfl⟩ | ⟨_, _, _, -, rfl⟩ | ⟨c, i, rfl, hd, hx⟩ | ⟨_, _, -, -, rfl⟩ := he
  · exact .inl rfl
  · exact absurd rfl hzf
  · exact absurd rfl hzf
  · cases hi : i.writesZf with
    | false => exact absurd (exec_keeps_zf hi hx) hzf
    | true =>
      obtain ⟨rd, ra, rb, rfl⟩ := eq_xlad_of_writesZf hi
      exact .inr ⟨c, rd, ra, rb, rfl, hd⟩
  · exact absurd rfl hzf

end Sys2Proof.Machine
end

section
/-! The host port (20_memory.md R43, R45): which steps are refused, and the bytes of the window. -/

namespace Sys2Proof.Machine

variable {s : State} {rest : List HostEvent}

/-! ## Refused steps (20_memory.md R43) -/

theorem step_eq_acceptEvent {e : HostEvent} (hp : s.port = e :: rest) :
    step s = acceptEvent e { s with port := rest } := by
  rw [step, hp]

theorem exec_ne_refused (i : Instr) (s : State) (r : Refusal) : exec i s ≠ .refused r := by
  obtain ⟨_, _, -, -, hx⟩ | ⟨_, _, -, -, hx⟩ | ⟨_, _, _, _, -, hx⟩ | ⟨_, _, _, -, hx⟩ |
    ⟨_, _, -, hx⟩ := exec_cases s i <;> rw [hx] <;> exact nofun

/-- A command issue is never refused: an illegal word ends with a code (30_encoding.md R65, R66). -/
theorem issueCommand_ne_refused (c : BusWord) (s : State) (r : Refusal) :
    issueCommand c s ≠ .refused r := by
  rw [issueCommand]
  split
  · exact exec_ne_refused _ _ _
  · exact nofun

/-- A read is refused exactly when it reaches neither `STATUS` nor a register word. -/
theorem readTransaction_refused_iff (offset size : Nat) (s : State) :
    (∃ r, readTransaction offset size s = .refused r) ↔
      ¬ (windowCell offset size = .ok .status ∨
        ∃ i k, windowCell offset size = .ok (.regWord i k)) := by
  rw [readTransaction]
  split <;> simp [*]

/-- A write is refused exactly when it reaches neither `CMD` nor a register word. -/
theorem writeTransaction_refused_iff (offset size : Nat) (v : BusWord) (s : State) :
    (∃ r, writeTransaction offset size v s = .refused r) ↔
      ¬ (windowCell offset size = .ok .command ∨
        ∃ i k, windowCell offset size = .ok (.regWord i k)) := by
  rw [writeTransaction]
  split <;> simp [*, issueCommand_ne_refused]

/-- Settles O41: a reset is accepted, and an access is refused by the cell it reaches. -/
theorem onlyOtherAccessesAreRefused : Obligations.OnlyOtherAccessesAreRefused := by
  intro s e rest hp
  rw [step_eq_acceptEvent hp]
  cases e with
  | reset => simp [acceptEvent]
  | memRead offset size =>
    refine (readTransaction_refused_iff offset size _).trans (not_congr ?_)
    simp only [windowCell_status, windowCell_regWord, regOffset, exists_and_left, and_or_left]
  | memWrite offset size v =>
    refine (writeTransaction_refused_iff offset size v _).trans (not_congr ?_)
    simp only [windowCell_command, windowCell_regWord, regOffset, exists_and_left, and_or_left]

/-! ## Bytes of the window (20_memory.md R45) -/

theorem step_memWrite_regOffset {i : WReg} {k : Fin 8} {v : BusWord}
    (hp : s.port = .memWrite (regOffset i k) 4 v :: rest) :
    step s = .next (State.writeW { s with port := rest } i (setBusWord (s.readW i) k v)) := by
  rw [step_eq_acceptEvent hp, acceptEvent, writeTransaction, windowCell_regOffset]
  rfl

theorem windowByte_of_register (s : State) (i : WReg) {m : Nat} (hm : m < 32) :
    windowByte s (0x400 + 32 * i.val + m) = some (byteOf (s.readW i) m) := by
  have hreg : Fin.ofNat 32 ((0x400 + 32 * i.val + m - 0x400) / 32) = i := by
    ext
    simp only [Fin.val_ofNat]
    omega
  have hbyte : (0x400 + 32 * i.val + m - 0x400) % 32 = m := by omega
  rw [windowByte, if_pos (by omega), hreg, hbyte]

/-- Every offset of the window is a byte of one register or holds none. -/
theorem window_offset_cases (a : Nat) :
    (∃ (j : WReg) (m : Nat), m < 32 ∧ a = 0x400 + 32 * j.val + m) ∨
      ((a < 0x400 ∨ 0x800 ≤ a) ∧ ∀ s : State, windowByte s a = none) := by
  by_cases ha : 0x400 ≤ a ∧ a < 0x800
  · exact .inl ⟨⟨(a - 0x400) / 32, by omega⟩, (a - 0x400) % 32, by omega, by dsimp only; omega⟩
  · exact .inr ⟨by omega, fun s => if_neg ha⟩

/-- Replacing word k replaces the bytes 4k to 4k + 3, lowest first, and keeps the others. -/
theorem byteOf_setBusWord (w : Word) (k : Fin 8) (v : BusWord) {m : Nat} (hm : m < 32) :
    byteOf (setBusWord w k v) m =
      if 4 * k.val ≤ m ∧ m < 4 * k.val + 4 then v.extractLsb' (8 * (m - 4 * k.val)) 8
      else byteOf w m := by
  apply BitVec.eq_of_getLsbD_eq
  intro n hn
  rw [getLsbD_byteOf _ _ _ hn, getLsbD_setBusWord _ _ _ _ (by omega)]
  by_cases h : 4 * k.val ≤ m ∧ m < 4 * k.val + 4
  · rw [if_pos h, if_pos (by omega), BitVec.getLsbD_extractLsb',
      show 8 * m + n - 32 * k.val = 8 * (m - 4 * k.val) + n by omega]
    simp [hn]
  · rw [if_neg h, if_neg (by omega), getLsbD_byteOf _ _ _ hn]

/-- What the window holds after a register write, byte by byte. -/
theorem windowByte_writeW_setBusWord (s : State) (i : WReg) (k : Fin 8) (v : BusWord) (a : Nat) :
    windowByte (s.writeW i (setBusWord (s.readW i) k v)) a =
      if regOffset i k ≤ a ∧ a < regOffset i k + 4 then
        some (v.extractLsb' (8 * (a - regOffset i k)) 8)
      else windowByte s a := by
  obtain ⟨j, m, hm, rfl⟩ | ⟨ha, hnone⟩ := window_offset_cases a
  · rw [windowByte_of_register _ _ hm, windowByte_of_register _ _ hm, readW_writeW]
    by_cases hj : j = i
    · subst hj
      have hword : (regOffset j k ≤ 0x400 + 32 * j.val + m ∧
          0x400 + 32 * j.val + m < regOffset j k + 4) ↔ 4 * k.val ≤ m ∧ m < 4 * k.val + 4 := by
        simp only [regOffset]; omega
      have hindex : 0x400 + 32 * j.val + m - regOffset j k = m - 4 * k.val := by
        simp only [regOffset]; omega
      simp only [hword, hindex, if_true, byteOf_setBusWord _ _ _ hm, apply_ite some]
    · have : j.val ≠ i.val := Fin.val_ne_of_ne hj
      rw [if_neg hj, if_neg (by simp only [regOffset]; omega)]
  · rw [hnone, hnone, if_neg (by simp only [regOffset]; omega)]

/-- Settles O42: a byte of the window is a byte of one register, and a register write replaces one word
of it. -/
theorem windowBytesAreLittleEndian : Obligations.WindowBytesAreLittleEndian :=
  ⟨fun s i _ hk => windowByte_of_register s i hk,
   fun s i k v rest hp => ⟨_, step_memWrite_regOffset hp,
     windowByte_writeW_setBusWord { s with port := rest } i k v⟩⟩

end Sys2Proof.Machine
end

section
/-! Illegal words (30_encoding.md R66). -/

namespace Sys2Proof.Machine

variable {s : State} {c : BusWord} {rest : List HostEvent}

/-- The mask and match columns of 30_encoding.md R64 are the ones `decode` reads. -/
theorem decode_error_of_unmatched
    (h : ∀ row ∈ opcodeMap.map (fun r => (r.bits, r.mask)), c &&& row.2 ≠ row.1) :
    ∃ e, decode c = .error e :=
  decode_error fun _ hr => beq_eq_false_iff_ne.2 (h _ (List.mem_map_of_mem hr))

/-- A write to `CMD` issues its word, in the state from which the event has been taken. -/
theorem step_memWrite_command (hp : s.port = .memWrite 0x000 4 c :: rest) :
    step s = issueCommand c { s with port := rest } := by
  rw [step_eq_acceptEvent hp, acceptEvent, writeTransaction, windowCell_command.2 ⟨rfl, rfl⟩]

theorem issueCommand_of_decode_error {e : IllegalWord} (hd : decode c = .error e) :
    issueCommand c s = .next (s.raise .illegalCommand) := by
  rw [issueCommand, hd]

/-- Settles O3: no row of the opcode map matches, so the decoder answers an error and the step is
`raise` of `IllegalCommand`, whose frame is the statement. -/
theorem illegalWordsOnlySetTheCode : Obligations.IllegalWordsOnlySetTheCode := by
  intro s c rest hrows hp
  obtain ⟨e, hd⟩ : ∃ e, decode c = .error e := decode_error_of_unmatched hrows
  have hstep : step s = .next (State.raise { s with port := rest } .illegalCommand) :=
    (step_memWrite_command hp).trans (issueCommand_of_decode_error hd)
  exact ⟨_, hstep, fun _ => raise_readW .., raise_status .., raise_port .., raise_replies ..,
    raise_resets ..⟩

end Sys2Proof.Machine
end

section
/-! The command words of the field commands (30_encoding.md R61, R64): the row of their opcode matches
them, whatever the operands. -/

namespace Sys2Proof

/-- A command word decodes to what the row of its opcode builds, when every operand field that is not
zero lies outside the row's mask. -/
theorem decode_commandWord {op rd ra rb imm : Nat} {mask : BusWord} {build : BusWord → Instr}
    (hop : op < 256) (hrd : rd < 32) (hra : ra < 32) (hrb : rb < 32) (him : imm < 256)
    (hrow : opcodeMap.find? (fun r => opField r.bits == op) =
      some ⟨commandWord op 0 0 0 0, mask, build⟩)
    (hmask : opField mask = 255 ∧ rd &&& rdField mask = 0 ∧ ra &&& raField mask = 0 ∧
      rb &&& rbField mask = 0 ∧ imm &&& immField mask = 0) :
    decode (commandWord op rd ra rb imm) = .ok (build (commandWord op rd ra rb imm)) := by
  obtain ⟨fop, frd, fra, frb, f8, fim⟩ := commandWord_fields hop hrd hra hrb him
  obtain ⟨bop, brd, bra, brb, b8, bim⟩ :=
    commandWord_fields hop (Nat.zero_lt_succ 31) (Nat.zero_lt_succ 31) (Nat.zero_lt_succ 31)
      (Nat.zero_lt_succ 255)
  obtain ⟨mop, mrd, mra, mrb, mim⟩ := hmask
  have hop' : op &&& 255 = op :=
    (Nat.and_two_pow_sub_one_eq_mod op 8).trans (Nat.mod_eq_of_lt hop)
  have hmatch : OpcodeRow.matches ⟨commandWord op 0 0 0 0, mask, build⟩
      (commandWord op rd ra rb imm) = true := by
    rw [matches_iff, fop, frd, fra, frb, f8, fim, bop, brd, bra, brb, b8, bim, mop]
    exact ⟨hop', mrd, mra, mrb, Nat.zero_and _, mim⟩
  exact decode_of_row (by rwa [fop]) hmatch

section
variable {op : Nat} (rd ra rb : WReg) {k : Nat}

/-- A row with one source register. -/
theorem decode_oneSource {build : WReg → WReg → Instr} (hop : op < 256)
    (hrow : opcodeMap.find? (fun r => opField r.bits == op) =
      some ⟨commandWord op 0 0 0 0, 0xFF003FFF,
        fun c => build (wOperand (rdField c)) (wOperand (raField c))⟩) :
    decode (commandWord op rd ra 0 0) = .ok (build rd ra) := by
  obtain ⟨-, frd, fra, -⟩ :=
    commandWord_fields hop rd.isLt ra.isLt (Nat.zero_lt_succ 31) (Nat.zero_lt_succ 255)
  rw [decode_commandWord hop rd.isLt ra.isLt (by omega) (by omega) hrow
    ⟨rfl, Nat.and_zero _, Nat.and_zero _, rfl, rfl⟩]
  simp only [frd, fra, wOperand_self]

/-- A row with two source registers. -/
theorem decode_twoSource {build : WReg → WReg → WReg → Instr} (hop : op < 256)
    (hrow : opcodeMap.find? (fun r => opField r.bits == op) =
      some ⟨commandWord op 0 0 0 0, 0xFF0001FF,
        fun c => build (wOperand (rdField c)) (wOperand (raField c)) (wOperand (rbField c))⟩) :
    decode (commandWord op rd ra rb 0) = .ok (build rd ra rb) := by
  obtain ⟨-, frd, fra, frb, -⟩ :=
    commandWord_fields hop rd.isLt ra.isLt rb.isLt (Nat.zero_lt_succ 255)
  rw [decode_commandWord hop rd.isLt ra.isLt rb.isLt (by omega) hrow
    ⟨rfl, Nat.and_zero _, Nat.and_zero _, Nat.and_zero _, rfl⟩]
  simp only [frd, fra, frb, wOperand_self]

theorem decode_fred : decode (commandWord 0x10 rd ra 0 0) = .ok (.fred rd ra) :=
  decode_oneSource rd ra (by omega) rfl
theorem decode_fadd : decode (commandWord 0x11 rd ra rb 0) = .ok (.fadd rd ra rb) :=
  decode_twoSource rd ra rb (by omega) rfl
theorem decode_fsub : decode (commandWord 0x12 rd ra rb 0) = .ok (.fsub rd ra rb) :=
  decode_twoSource rd ra rb (by omega) rfl
theorem decode_fmul : decode (commandWord 0x13 rd ra rb 0) = .ok (.fmul rd ra rb) :=
  decode_twoSource rd ra rb (by omega) rfl
theorem decode_fpsq (hk : k < 256) :
    decode (commandWord 0x14 rd ra rb k) = .ok (.fpsq rd ra rb k) := by
  obtain ⟨-, frd, fra, frb, -, fim⟩ :=
    commandWord_fields (by omega : 0x14 < 256) rd.isLt ra.isLt rb.isLt hk
  rw [decode_commandWord (by omega) rd.isLt ra.isLt rb.isLt hk rfl
    ⟨rfl, Nat.and_zero _, Nat.and_zero _, Nat.and_zero _, Nat.and_zero _⟩]
  simp only [frd, fra, frb, fim, wOperand_self]
theorem decode_finv : decode (commandWord 0x15 rd ra 0 0) = .ok (.finv rd ra) :=
  decode_oneSource rd ra (by omega) rfl
theorem decode_fsqx : decode (commandWord 0x16 rd ra 0 0) = .ok (.fsqx rd ra) :=
  decode_oneSource rd ra (by omega) rfl
theorem decode_fsqrt : decode (commandWord 0x17 rd ra rb 0) = .ok (.fsqrt rd ra rb) :=
  decode_twoSource rd ra rb (by omega) rfl
end

end Sys2Proof
end

section
/-! The field commands (41_field.md): each completes with one canonical value in its destination, and
what that value is modulo P. -/

namespace Sys2Proof.Machine

/-- From `s` to `t` the value of `rd` has become `n`, and the command has completed. -/
def Wrote (rd : WReg) (s t : State) (n : Nat) : Prop :=
  (t.readW rd).toNat = n ∧ UnchangedBut [rd] s t ∧ t.status = { code := .ok, zf := s.status.zf }

/-- A command that ends by writing a canonical number. -/
theorem exec_writes {i : Instr} {s : State} {rd : WReg} {n : Nat}
    (hx : exec i s = .next ((s.putInt rd n).complete)) (hn : n < P) :
    ∃ t, exec i s = .next t ∧ Wrote rd s t n :=
  ⟨_, hx, toNat_readW_putInt s rd hn, unchanged_putInt s rd n, rfl⟩

/-! ## One operation (41_field.md R82 to R85) -/

/-- Settles O6: the result is `fred`, canonical by definition. -/
theorem fredReducesModuloP : Obligations.FredReducesModuloP := fun rd ra s =>
  ⟨decode_fred rd ra, exec_writes (exec_fred s rd ra) (fred_lt _)⟩

/-- Settles O7: the result is `fadd`, the natural numbers' sum reduced once. -/
theorem faddAddsModuloP : Obligations.FaddAddsModuloP := fun rd ra rb s =>
  ⟨decode_fadd rd ra rb, exec_writes (exec_fadd s rd ra rb) (fadd_lt _ _)⟩

/-- Settles O8: `fsub` adds the additive inverse, which `fsub_eq_int` says is the integer remainder. -/
theorem fsubSubtractsModuloP : Obligations.FsubSubtractsModuloP := by
  intro rd ra rb s
  obtain ⟨t, hx, hval, hframe⟩ := exec_writes (exec_fsub s rd ra rb) (fsub_lt _ _)
  refine ⟨decode_fsub rd ra rb, t, hx, ?_, hframe⟩
  rw [hval]
  exact fsub_eq_int _ _

/-- Settles O9: the result is `fmul`, the natural numbers' product reduced once. -/
theorem fmulMultipliesModuloP : Obligations.FmulMultipliesModuloP := fun rd ra rb s =>
  ⟨decode_fmul rd ra rb, exec_writes (exec_fmul s rd ra rb) (fmul_lt _ _)⟩

/-! ## Squarings (41_field.md R86, R88) -/

theorem fpsq_eq_pow (x k f : Nat) : fpsq x k f = (x % P) ^ 2 ^ k * f % P :=
  eq_of_cast_eq (fpsq_lt x k f) (Nat.mod_lt _ P_pos) (by
    rw [cast_fpsq, cast_mod_P, Nat.cast_mul, Nat.cast_pow, cast_mod_P])

/-- Settles O10: k squarings are the power 2^k. -/
theorem fpsqIsThePowerTimesTheFactor : Obligations.FpsqIsThePowerTimesTheFactor := by
  intro rd ra rb k s hk
  obtain ⟨t, hx, hval, hframe⟩ := exec_writes (exec_fpsq s rd ra rb k) (fpsq_lt _ _ _)
  exact ⟨decode_fpsq rd ra rb (Nat.lt_succ_of_le hk), t, hx, hval.trans (fpsq_eq_pow _ _ _), hframe⟩

/-- `y` is the power of `x` whose exponent is n binary ones, 2^n - 1: what each step of the chain of
41_field.md R88 holds. -/
def IsOnesPower (x n y : Nat) : Prop := (y : ZMod P) = (x : ZMod P) ^ (2 ^ n - 1)

theorem isOnesPower_self (x : Nat) : IsOnesPower x 1 x := (pow_one _).symm

/-- Squaring a ones power b times and multiplying by one of b ones appends b ones to the exponent. -/
theorem IsOnesPower.append {x a b y f : Nat} (hy : IsOnesPower x a y) (hf : IsOnesPower x b f) :
    IsOnesPower x (a + b) (fpsq y b f) := by
  have hexp : (2 ^ a - 1) * 2 ^ b + (2 ^ b - 1) = 2 ^ (a + b) - 1 := by
    have := Nat.two_pow_pos a
    have := Nat.two_pow_pos b
    have := Nat.le_mul_of_pos_left (2 ^ b) (Nat.two_pow_pos a)
    rw [Nat.sub_mul, pow_add]
    omega
  rw [IsOnesPower, cast_fpsq, hy, hf, ← pow_mul, ← pow_add, hexp]

/-- The last step appends the digits 01: 2^250 - 1 becomes 2^252 - 3. -/
theorem fsqx_eq_fpsq {x y : Nat} (hy : IsOnesPower x 250 y) : fsqx x = fpsq y 2 x := by
  apply eq_of_cast_eq (fsqx_lt x) (fpsq_lt y 2 x)
  rw [cast_fsqx, cast_fpsq, hy, ← pow_mul, ← pow_succ]
  exact congrArg _ (by decide +kernel)

/-- Settles O12: the power is `fsqx_eq_pow`; the chain keeps exponents of ones until its last step. -/
theorem fsqxRaisesToTheFixedExponent : Obligations.FsqxRaisesToTheFixedExponent := by
  refine ⟨fun rd ra s => ?_, fun x => ?_⟩
  · obtain ⟨t, hx, hval, hframe⟩ := exec_writes (exec_fsqx s rd ra) (fsqx_lt _)
    exact ⟨decode_fsqx rd ra, t, hx, hval.trans (fsqx_eq_pow _), hframe⟩
  · have h1 := isOnesPower_self x
    have h2 := h1.append h1
    have h4 := h2.append h2
    have h5 := h4.append h1
    have h10 := h5.append h5
    have h20 := h10.append h10
    have h40 := h20.append h20
    have h80 := h40.append h40
    have h160 := h80.append h80
    have h240 := h160.append h80
    have h250 := h240.append h10
    exact fsqx_eq_fpsq h250

/-! ## The inverse (41_field.md R87) -/

theorem finv_of_mod_eq_zero {x : Nat} (h : x % P = 0) : finv x = 0 := by
  have := fact_P_prime
  apply eq_of_cast_eq (finv_lt x) P_pos
  rw [Laws.cast_finv, cast_eq_zero_iff.2 h, inv_zero, Nat.cast_zero]

theorem mul_finv_mod {x : Nat} (h : x % P ≠ 0) : x * finv x % P = 1 := by
  have := fact_P_prime
  apply eq_of_cast_eq (Nat.mod_lt _ P_pos) Laws.P_prime.one_lt
  rw [cast_mod_P, Nat.cast_mul, Laws.cast_finv, Nat.cast_one]
  exact mul_inv_cancel₀ fun h0 => h (cast_eq_zero_iff.1 h0)

theorem finv_pos {x : Nat} (h : x % P ≠ 0) : 0 < finv x := by
  rw [Nat.pos_iff_ne_zero]
  intro h0
  have := mul_finv_mod h
  rw [h0, Nat.mul_zero, Nat.zero_mod] at this
  exact absurd this Nat.zero_ne_one

theorem eq_finv_of_mul_mod {x y : Nat} (hy : y < P) (h : x * y % P = 1) : y = finv x := by
  have := fact_P_prime
  apply eq_of_cast_eq hy (finv_lt x)
  rw [Laws.cast_finv]
  apply eq_inv_of_mul_eq_one_right
  rw [← Nat.cast_mul, ← cast_mod_P, h, Nat.cast_one]

/-- Settles O11: P is prime, so `finv` is the field's inverse, and a residue has one inverse. -/
theorem finvWritesTheUniqueInverse : Obligations.FinvWritesTheUniqueInverse := by
  intro rd ra s
  obtain ⟨t, hx, hval, hframe⟩ := exec_writes (exec_finv s rd ra) (finv_lt _)
  refine ⟨decode_finv rd ra, t, hx, ?_, ?_, hframe⟩
  · exact fun h0 => hval.trans (finv_of_mod_eq_zero h0)
  · intro h0
    rw [hval]
    exact ⟨finv_pos h0, finv_lt _, mul_finv_mod h0, fun y _ hy h => eq_finv_of_mul_mod hy h⟩

/-! ## The square root of a ratio (41_field.md R89, R90) -/

/-- The candidate of R89, u·v³·(u·v⁷)^((P-5)/8) mod P, written as the rule does. -/
def rootCandidate (u v : Nat) : Nat := u * v ^ 3 * (u * v ^ 7 % P) ^ ((P - 5) / 8) % P

/-- The candidate as `sqrtRatio` computes it. -/
theorem rootCandidate_eq (u v : Nat) : rootCandidate u v =
    fmul (fmul (u % P) (fmul (fsq (v % P)) (v % P)))
      (fsqx (fmul (u % P) (fmul (fsq (fmul (fsq (v % P)) (v % P))) (v % P)))) := by
  have hexp : (P - 5) / 8 = 2 ^ 252 - 3 := by decide +kernel
  rw [rootCandidate, hexp]
  apply eq_of_cast_eq (Nat.mod_lt _ P_pos) (fmul_lt _ _)
  simp only [cast_mod_P, cast_fmul, cast_fsq, cast_fsqx, Nat.cast_mul, Nat.cast_pow]
  rw [show (v : ZMod P) ^ 2 * v = v ^ 3 by ring, show ((v : ZMod P) ^ 3) ^ 2 * v = v ^ 7 by ring]

/-- The first test of R89: v·x² ≡ u. -/
theorem fmul_fsq_eq_iff (u v x : Nat) :
    fmul (v % P) (fsq x) = u % P ↔ v * x ^ 2 % P = u % P := by
  rw [fmul, fsq, ← Nat.mul_mod, sq]

/-- The second test of R89: v·x² ≡ -u. -/
theorem fmul_fsq_eq_fsub_iff (u v x : Nat) :
    fmul (v % P) (fsq x) = fsub 0 (u % P) ↔ (v * x ^ 2 + u) % P = 0 := by
  calc fmul (v % P) (fsq x) = fsub 0 (u % P)
      ↔ ((fmul (v % P) (fsq x) : Nat) : ZMod P) = (fsub 0 (u % P) : Nat) :=
        ⟨fun h => congrArg _ h, eq_of_cast_eq (fmul_lt _ _) (fsub_lt _ _)⟩
    _ ↔ ((v * x ^ 2 + u : Nat) : ZMod P) = 0 := by
        simp [eq_neg_iff_add_eq_zero]
    _ ↔ (v * x ^ 2 + u) % P = 0 := cast_eq_zero_iff

/-- `SqrtRatio` is R89's chain of tests of the candidate. -/
theorem sqrtRatio_eq_ite (u v : Nat) : sqrtRatio u v =
    if v * rootCandidate u v ^ 2 % P = u % P then some (rootCandidate u v)
    else if (v * rootCandidate u v ^ 2 + u) % P = 0 then some (rootCandidate u v * SQRTM1 % P)
    else none := by
  simp only [← fmul_fsq_eq_iff, ← fmul_fsq_eq_fsub_iff, rootCandidate_eq]
  rfl

theorem mul_sq_mod_of_sqrtRatio {u v x : Nat} (h : sqrtRatio u v = some x) :
    v * x ^ 2 % P = u % P := by
  rw [← cast_eq_iff, Nat.cast_mul, Nat.cast_pow]
  exact Laws.sqrtRatio_some h

theorem no_root_of_sqrtRatio {u v : Nat} (h : sqrtRatio u v = none) :
    ¬ ∃ y, v * y ^ 2 % P = u % P := by
  have := fact_P_prime
  rintro ⟨y, hy⟩
  apply Laws.sqrtRatio_none h (y : ZMod P)
  rw [← Nat.cast_pow, ← Nat.cast_mul, cast_eq_iff, hy]

/-- The statement's chain of tests, with `A` of the value written and `B` of a failure, says `A` or `B`
of the outcome of `sqrtRatio`. -/
theorem root_tests_iff (u v : Nat) (A : Nat → Prop) (B : Prop) :
    (if v * rootCandidate u v ^ 2 % P = u % P then A (rootCandidate u v)
      else if (v * rootCandidate u v ^ 2 + u) % P = 0 then A (rootCandidate u v * SQRTM1 % P)
      else B) ↔ (sqrtRatio u v).elim B A := by
  rw [sqrtRatio_eq_ite]
  split_ifs <;> rfl

/-- Settles O13: `sqrtRatio` is R89's chain of tests; it finds a root where there is one, and
otherwise nothing is written. -/
theorem fsqrtFollowsTheRootFormula : Obligations.FsqrtFollowsTheRootFormula := by
  intro rd ra rb s
  refine ⟨decode_fsqrt rd ra rb, ?_⟩
  cases h : sqrtRatio (s.intOf ra) (s.intOf rb) with
  | some x =>
    obtain ⟨t, hx, hval, hframe, hst⟩ :=
      exec_writes (exec_fsqrt_some s rd ra rb h) (sqrtRatio_lt h)
    refine ⟨t, hx, ?_, fun _ => ⟨by rw [hst], ?_, ?_⟩, fun hno => ?_⟩
    · apply (root_tests_iff (s.intOf ra) (s.intOf rb) (Wrote rd s t) _).2
      rw [h]
      exact ⟨hval, hframe, hst⟩
    · rw [hval]
      exact sqrtRatio_lt h
    · rw [hval]
      exact mul_sq_mod_of_sqrtRatio h
    · exact absurd ⟨x, mul_sq_mod_of_sqrtRatio h⟩ hno
  | none =>
    refine ⟨s.raise .noSquareRoot, exec_fsqrt_none s rd ra rb h, ?_, fun hy => ?_, fun _ => rfl⟩
    · apply (root_tests_iff (s.intOf ra) (s.intOf rb) (Wrote rd s (s.raise .noSquareRoot)) _).2
      rw [h]
      exact ⟨unchanged_raise s _, rfl⟩
    · exact absurd hy (no_root_of_sqrtRatio h)

end Sys2Proof.Machine
end

section
/-! Scalar clamping (42_bytes_clamp.md R102). -/

namespace Sys2Proof.Machine

theorem decode_clamp (rd ra : WReg) :
    decode (commandWord 0x20 rd ra 0 0) = .ok (.clamp rd ra) :=
  decode_oneSource rd ra (by omega) rfl

/-- A bit of a clamped scalar is cleared, set or copied, by its position. -/
theorem getLsbD_clamp_eq_ite (v : Word) {n : Nat} (hn : n < 256) : (clamp v).getLsbD n =
    if n < 3 ∨ n = 255 then false else if n = 254 then true else v.getLsbD n := by
  rw [getLsbD_clamp v n hn]
  split_ifs with hclear hset
  · have : ¬ (3 ≤ n ∧ n ≠ 255) ∧ n ≠ 254 := by omega
    simp [this]
  · simp [hset]
  · have : 3 ≤ n ∧ n ≠ 255 := by omega
    simp [this, hset]

/-- Settles O15: the command writes `clamp` of its source, whose bits are `getLsbD_clamp_eq_ite`. -/
theorem clampSetsAndClearsTheFiveBits : Obligations.ClampSetsAndClearsTheFiveBits := by
  intro rd ra s
  refine ⟨decode_clamp rd ra, _, exec_clamp s rd ra, fun n hn => ?_, unchanged_writeW s rd _, rfl⟩
  rw [complete_readW, readW_writeW_same]
  exact getLsbD_clamp_eq_ite _ hn

end Sys2Proof.Machine
end

section
/-! Byte images (42_bytes_clamp.md R100, R101): a buffer is the list of its integer's digits in
base 2^8, lowest first. -/

namespace Sys2Proof.Machine

theorem length_intToBytes (v : Word) : (intToBytes v).length = 32 := by simp [intToBytes]

theorem toNat_byteOf (v : Word) (k : Nat) : (byteOf v k).toNat = v.toNat / 2 ^ (8 * k) % 2 ^ 8 := by
  rw [byteOf, BitVec.extractLsb'_toNat, Nat.shiftRight_eq_div_pow]

/-- The bytes from position k on are the integer from bit 8k on, as far as they reach. -/
theorem bytesToInt_range'_byteOf (v : Word) (n k : Nat) :
    bytesToInt ((List.range' k n).map (byteOf v)) = v.toNat / 2 ^ (8 * k) % 2 ^ (8 * n) := by
  induction n generalizing k with
  | zero => simp [bytesToInt, Nat.mod_one]
  | succ n ih =>
    calc bytesToInt ((List.range' k (n + 1)).map (byteOf v))
        = v.toNat / 2 ^ (8 * k) % 2 ^ 8 +
            2 ^ 8 * (v.toNat / 2 ^ (8 * (k + 1)) % 2 ^ (8 * n)) := by
          rw [List.range'_succ, List.map_cons, bytesToInt, toNat_byteOf, ih]
      _ = v.toNat / 2 ^ (8 * k) % (2 ^ 8 * 2 ^ (8 * n)) := by
          rw [Nat.mod_mul, Nat.div_div_eq_div_mul, ← pow_add, Nat.mul_succ]
      _ = v.toNat / 2 ^ (8 * k) % 2 ^ (8 * (n + 1)) := by
          rw [← pow_add, Nat.mul_succ, Nat.add_comm 8]

theorem bytesToInt_intToBytes (v : Word) : bytesToInt (intToBytes v) = v.toNat := by
  rw [intToBytes, List.range_eq_range', bytesToInt_range'_byteOf, Nat.mul_zero, pow_zero,
    Nat.div_one, Nat.mod_eq_of_lt v.isLt]

theorem bytesToInt_eq_ofDigits (b : List Byte) :
    bytesToInt b = Nat.ofDigits (2 ^ 8) (b.map BitVec.toNat) := by
  induction b with
  | nil => rfl
  | cons x b ih => rw [bytesToInt, List.map_cons, Nat.ofDigits_cons, ih]

/-- The values of bytes are digits in base 2^8. -/
theorem lt_of_mem_map_toNat {b : List Byte} : ∀ d ∈ b.map BitVec.toNat, d < 2 ^ 8 := by
  simp only [List.mem_map]
  rintro _ ⟨x, -, rfl⟩
  exact x.isLt

theorem bytesToInt_lt (b : List Byte) : bytesToInt b < 2 ^ (8 * b.length) := by
  rw [bytesToInt_eq_ofDigits, pow_mul, ← List.length_map BitVec.toNat]
  exact Nat.ofDigits_lt_base_pow_length (by omega) lt_of_mem_map_toNat

/-- Buffers of one length with one integer are equal. -/
theorem eq_of_bytesToInt_eq {b c : List Byte} (hlen : b.length = c.length)
    (h : bytesToInt b = bytesToInt c) : b = c := by
  rw [bytesToInt_eq_ofDigits, bytesToInt_eq_ofDigits] at h
  refine List.map_injective_iff.2 (fun _ _ => BitVec.eq_of_toNat_eq) ?_
  exact Nat.ofDigits_inj_of_len_eq (by omega) (by simpa using hlen) lt_of_mem_map_toNat
    lt_of_mem_map_toNat h

/-- The other direction follows from the first: the integer of a 32-byte buffer fits a register, and
its byte image has the same integer. -/
theorem intToBytes_bytesToInt {b : List Byte} (hb : b.length = 32) :
    intToBytes (BitVec.ofNat 256 (bytesToInt b)) = b := by
  have hlt : bytesToInt b < 2 ^ 256 := by simpa [hb] using bytesToInt_lt b
  apply eq_of_bytesToInt_eq (by rw [length_intToBytes, hb])
  rw [bytesToInt_intToBytes, BitVec.toNat_ofNat, Nat.mod_eq_of_lt hlt]

/-- Settles O17: each conversion inverts the other. -/
theorem byteImagesRoundTrip : Obligations.ByteImagesRoundTrip :=
  ⟨fun v => ⟨length_intToBytes v, bytesToInt_intToBytes v⟩, fun _ => intToBytes_bytesToInt⟩

end Sys2Proof.Machine
end

section
/-! The command words of the group commands (30_encoding.md R61, R62, R64). -/

namespace Sys2Proof

/-- The field of a p operand fits five bits. -/
theorem four_mul_view_lt (j : PView) : 4 * j.val < 32 := by omega

theorem decode_padd (rd ra rb : PView) :
    decode (commandWord 0x30 (4 * rd) (4 * ra) (4 * rb) 0) = .ok (.padd rd ra rb) := by
  have hrd := four_mul_view_lt rd
  have hra := four_mul_view_lt ra
  have hrb := four_mul_view_lt rb
  obtain ⟨-, frd, fra, frb, -⟩ :=
    commandWord_fields (by omega : 0x30 < 256) hrd hra hrb (Nat.zero_lt_succ 255)
  rw [decode_commandWord (mask := 0xFF18C7FF) (by omega) hrd hra hrb (by omega) rfl
    ⟨rfl, four_and_three rd, four_and_three ra, four_and_three rb, rfl⟩]
  simp only [frd, fra, frb, pOperand_four]

theorem decode_pdbl (rd ra : PView) :
    decode (commandWord 0x31 (4 * rd) (4 * ra) 0 0) = .ok (.pdbl rd ra) := by
  have hrd := four_mul_view_lt rd
  have hra := four_mul_view_lt ra
  obtain ⟨-, frd, fra, -⟩ :=
    commandWord_fields (by omega : 0x31 < 256) hrd hra (Nat.zero_lt_succ 31) (Nat.zero_lt_succ 255)
  rw [decode_commandWord (mask := 0xFF18FFFF) (by omega) hrd hra (by omega) (by omega) rfl
    ⟨rfl, four_and_three rd, four_and_three ra, rfl, rfl⟩]
  simp only [frd, fra, pOperand_four]

end Sys2Proof
end

section
/-! The group commands (43_edwards_group.md): each completes with one canonical point in its view.
The coordinates are compared with the rule's integers in ZMod P, the points with the group's sum by
what `pointAdd_spec` and `pointDouble_spec` say of the affine pairs. -/

namespace Sys2Proof.Machine

open Laws

/-- From `s` to `t` the point in view `rd` has become `q`, and the command has completed. -/
def WroteP (rd : PView) (s t : State) (q : Point) : Prop :=
  t.readP rd = q ∧ UnchangedBut (viewRegs rd) s t ∧ t.status = { code := .ok, zf := s.status.zf }

/-- A command that ends by writing a point with canonical coordinates. -/
theorem exec_writesP {i : Instr} {s : State} {rd : PView} {q : Point}
    (hx : exec i s = .next ((s.writeP rd q).complete))
    (hq : q.X < P ∧ q.Y < P ∧ q.Z < P ∧ q.T < P) :
    ∃ t, exec i s = .next t ∧ WroteP rd s t q := by
  obtain ⟨hX, hY, hZ, hT⟩ := hq
  exact ⟨_, hx, readP_writeP s rd hX hY hZ hT, unchanged_writeP s rd q, rfl⟩

theorem exec_padd_writes (rd ra rb : PView) (s : State) : ∃ t, exec (.padd rd ra rb) s = .next t ∧
    WroteP rd s t (pointAdd (s.readP ra) (s.readP rb)) :=
  exec_writesP (exec_padd s rd ra rb) (pointAdd_lt _ _)

theorem exec_pdbl_writes (rd ra : PView) (s : State) : ∃ t, exec (.pdbl rd ra) s = .next t ∧
    WroteP rd s t (pointDouble (s.readP ra)) :=
  exec_writesP (exec_pdbl s rd ra) (pointDouble_lt _)

/-! ## The formulas over the integers (43_edwards_group.md R118, R120) -/

section
variable {a b : Nat} {x y : Int} (ha : (a : ZMod P) = x) (hb : (b : ZMod P) = y)
include ha hb

theorem cast_fadd_eq_intCast : ((fadd a b : Nat) : ZMod P) = (x + y : Int) := by
  rw [cast_fadd, ha, hb, Int.cast_add]

theorem cast_fsub_eq_intCast : ((fsub a b : Nat) : ZMod P) = (x - y : Int) := by
  rw [cast_fsub, ha, hb, Int.cast_sub]

/-- A product of factors that equal integers in ZMod P is the remainder of the integers' product. -/
theorem fmul_eq_emod : (fmul a b : Int) = x * y % (2 ^ 255 - 19) :=
  natCast_eq_emod (fmul_lt a b) (by rw [cast_fmul, ha, hb, Int.cast_mul])
end

/-- The rule's A to H, line by line: each step of the model is that integer in ZMod P. -/
theorem pointAdd_eq_emod (p q : Point) :
    let A : Int := (p.Y - p.X) * (q.Y - q.X)
    let B : Int := (p.Y + p.X) * (q.Y + q.X)
    let C : Int := p.T * (2 * D) * q.T
    let E0 : Int := p.Z * 2 * q.Z
    let E := B - A
    let F := E0 - C
    let G := E0 + C
    let H := B + A
    ((pointAdd p q).X : Int) = E * F % (2 ^ 255 - 19) ∧
      ((pointAdd p q).Y : Int) = G * H % (2 ^ 255 - 19) ∧
      ((pointAdd p q).Z : Int) = F * G % (2 ^ 255 - 19) ∧
      ((pointAdd p q).T : Int) = E * H % (2 ^ 255 - 19) := by
  intro A B C E0 E F G H
  have hA : ((fmul (fsub p.Y p.X) (fsub q.Y q.X) : Nat) : ZMod P) = A := by simp [A]
  have hB : ((fmul (fadd p.Y p.X) (fadd q.Y q.X) : Nat) : ZMod P) = B := by simp [B]
  have hC : ((fmul (fmul p.T D2) q.T : Nat) : ZMod P) = C := by simp [C, D2, two_mul]
  have hE0 : ((fmul (fmul p.Z 2) q.Z : Nat) : ZMod P) = E0 := by simp [E0]
  have hE : ((fsub _ _ : Nat) : ZMod P) = E := cast_fsub_eq_intCast hB hA
  have hF : ((fsub _ _ : Nat) : ZMod P) = F := cast_fsub_eq_intCast hE0 hC
  have hG : ((fadd _ _ : Nat) : ZMod P) = G := cast_fadd_eq_intCast hE0 hC
  have hH : ((fadd _ _ : Nat) : ZMod P) = H := cast_fadd_eq_intCast hB hA
  exact ⟨fmul_eq_emod hE hF, fmul_eq_emod hG hH, fmul_eq_emod hF hG, fmul_eq_emod hE hH⟩

/-- As `pointAdd_eq_emod`, for the doubling formula. -/
theorem pointDouble_eq_emod (p : Point) :
    let A : Int := p.X ^ 2
    let B : Int := p.Y ^ 2
    let C : Int := 2 * p.Z ^ 2
    let H := A + B
    let E := H - (p.X + p.Y) ^ 2
    let G := A - B
    let F := C + G
    ((pointDouble p).X : Int) = E * F % (2 ^ 255 - 19) ∧
      ((pointDouble p).Y : Int) = G * H % (2 ^ 255 - 19) ∧
      ((pointDouble p).Z : Int) = F * G % (2 ^ 255 - 19) ∧
      ((pointDouble p).T : Int) = E * H % (2 ^ 255 - 19) := by
  intro A B C H E G F
  have hA : ((fsq p.X : Nat) : ZMod P) = A := by simp [A]
  have hB : ((fsq p.Y : Nat) : ZMod P) = B := by simp [B]
  have hC : ((fmul 2 (fsq p.Z) : Nat) : ZMod P) = C := by simp [C]
  have hH : ((fadd _ _ : Nat) : ZMod P) = H := cast_fadd_eq_intCast hA hB
  have hXY : ((fsq (fadd p.X p.Y) : Nat) : ZMod P) = ((p.X + p.Y : Int) ^ 2 : Int) := by simp
  have hE : ((fsub _ _ : Nat) : ZMod P) = E := cast_fsub_eq_intCast hH hXY
  have hG : ((fsub _ _ : Nat) : ZMod P) = G := cast_fsub_eq_intCast hA hB
  have hF : ((fadd _ _ : Nat) : ZMod P) = F := cast_fadd_eq_intCast hC hG
  exact ⟨fmul_eq_emod hE hF, fmul_eq_emod hG hH, fmul_eq_emod hF hG, fmul_eq_emod hE hH⟩

/-- Settles O19: PADD writes `pointAdd` of the source views, whose coordinates are
`pointAdd_eq_emod`. -/
theorem paddFollowsTheUnifiedFormula : Obligations.PaddFollowsTheUnifiedFormula := by
  intro rd ra rb s
  obtain ⟨t, hx, hpt, hframe⟩ := exec_padd_writes rd ra rb s
  have hcoords := pointAdd_eq_emod (s.readP ra) (s.readP rb)
  rw [← hpt] at hcoords
  exact ⟨decode_padd rd ra rb, t, hx, hcoords, hframe⟩

/-- Settles O22: PDBL writes `pointDouble` of the source view, whose coordinates are
`pointDouble_eq_emod`. -/
theorem pdblFollowsTheDoublingFormula : Obligations.PdblFollowsTheDoublingFormula := by
  intro rd ra s
  obtain ⟨t, hx, hpt, hframe⟩ := exec_pdbl_writes rd ra s
  have hcoords := pointDouble_eq_emod (s.readP ra)
  rw [← hpt] at hcoords
  exact ⟨decode_pdbl rd ra, t, hx, hcoords, hframe⟩

/-! ## Valid points (43_edwards_group.md R117, R119) -/

/-- The sum of R116 on pairs of numbers is the field's sum of the affine pairs. -/
theorem affine_eq_affineAdd [Fact P.Prime] {p q r : Point}
    (h : affK r = addK (affK p) (affK q)) : affine r = affineAdd (affine p) (affine q) :=
  eq_of_castPair_eq (affine_lt r) (affineAdd_lt _ _) (by
    rw [castPair_affineAdd, castPair_affine, castPair_affine, castPair_affine, h])

/-- Settles O20: `pointAdd_spec` for the point PADD writes. -/
theorem paddAddsValidPoints : Obligations.PaddAddsValidPoints := by
  have := fact_P_prime
  intro rd ra rb s hp hq
  obtain ⟨t, hx, hpt, -⟩ := exec_padd_writes rd ra rb s
  obtain ⟨hvalid, hsum⟩ := pointAdd_spec hp hq
  refine ⟨t, hx, ?_⟩
  rw [hpt]
  exact ⟨hvalid, affine_eq_affineAdd hsum⟩

/-- Settles O23: the doubled point and the sum of the source with itself have one affine pair, hence
one class. -/
theorem pdblDoublesValidPoints : Obligations.PdblDoublesValidPoints := by
  have := fact_P_prime
  intro rd ra s hp
  obtain ⟨t, hx, hpt, -⟩ := exec_pdbl_writes rd ra s
  obtain ⟨hvalid, hdouble⟩ := pointDouble_spec hp
  obtain ⟨hvalidAdd, hsum⟩ := pointAdd_spec hp hp
  refine ⟨t, hx, ?_⟩
  rw [hpt]
  exact ⟨hvalid, (pointEq_iff hvalid hvalidAdd).2 (hdouble.trans hsum.symm),
    affine_eq_affineAdd hdouble⟩

end Sys2Proof.Machine
end

section
/-! The digit recoding (44_fixed_base.md R133): one digit and the carry out of it, then the list of
them. -/

namespace Sys2Proof.Machine

open Laws

/-- The carry out of window `w`, with the carry into it. -/
def nextCarry (s w carry : Nat) : Nat := if scalarByte s w + carry > 128 then 1 else 0

/-- The digit of window `w`, with the carry into it. -/
def digitAt (s w carry : Nat) : Int := scalarByte s w + carry - 256 * nextCarry s w carry

variable (s n w carry : Nat)

theorem nextCarry_le_one : nextCarry s w carry ≤ 1 := by
  unfold nextCarry
  split <;> omega

theorem recode_zero : recode s 0 w carry = [] := rfl

theorem recode_succ : recode s (n + 1) w carry =
    digitAt s w carry :: recode s n (w + 1) (nextCarry s w carry) := by
  by_cases h : scalarByte s w + carry > 128
  · simp [recode, digitAt, nextCarry, h]
  · simp [recode, digitAt, nextCarry, h]

theorem carryOut_nextCarry :
    carryOut s (n + 1) w carry = carryOut s n (w + 1) (nextCarry s w carry) := rfl

/-- A digit that exceeds 128 has 256 taken off; a byte and a carry are at most 256 together. -/
theorem digitAt_bounds {carry : Nat} (hc : carry ≤ 1) :
    -127 ≤ digitAt s w carry ∧ digitAt s w carry ≤ 128 := by
  have hbyte := scalarByte_le s w
  unfold digitAt nextCarry
  split <;> omega

/-- Window 32 has no byte of the scalar: its digit is the carry into it. -/
theorem digitAt_last {carry : Nat} (hc : carry ≤ 1) : digitAt s 32 carry = carry := by
  have hbyte : scalarByte s 32 = 0 := rfl
  have hnext : nextCarry s 32 carry = 0 := by rw [nextCarry, hbyte, if_neg (by omega)]
  rw [digitAt, hbyte, hnext]
  omega

theorem length_recode : ∀ n w carry, (recode s n w carry).length = n
  | 0, _, _ => rfl
  | n + 1, w, carry => by rw [recode_succ, List.length_cons, length_recode n]

theorem bounds_of_mem_recode : ∀ {n w carry : Nat} {d : Int}, carry ≤ 1 → d ∈ recode s n w carry →
    -127 ≤ d ∧ d ≤ 128
  | 0, _, _, _, _, hd => absurd hd List.not_mem_nil
  | n + 1, w, carry, d, hc, hd => by
    rw [recode_succ, List.mem_cons] at hd
    obtain rfl | hd := hd
    · exact digitAt_bounds s w hc
    · exact bounds_of_mem_recode (nextCarry_le_one s w carry) hd

/-- Entry `k` of a recoding is the digit of window `w + k`. -/
theorem getElem?_recode : ∀ {n k : Nat} (w carry : Nat), k < n →
    (recode s n w carry)[k]? = some (digitAt s (w + k) (carryOut s k w carry))
  | n + 1, 0, w, carry, _ => by rw [recode_succ, List.getElem?_cons_zero]; rfl
  | n + 1, k + 1, w, carry, hk => by
    rw [recode_succ, List.getElem?_cons_succ, getElem?_recode (w + 1) _ (by omega),
      Nat.add_right_comm w 1 k, Nat.add_assoc w k 1, carryOut_nextCarry]

/-- What a list of digits is worth, in units of its first window. -/
def digitsValue (ds : List Int) : Int := ds.foldr (fun d rest => d + 256 * rest) 0

theorem digitsValue_cons (d : Int) (ds : List Int) :
    digitsValue (d :: ds) = d + 256 * digitsValue ds := rfl

/-- The digits and the carry out of the last window are worth the bytes and the carry into the first:
at each window the digit and the carry out of it are worth the byte and the carry into it. -/
theorem digitsValue_recode : ∀ n w carry,
    digitsValue (recode s n w carry) * 2 ^ (8 * w) + carryOut s n w carry * 2 ^ (8 * (w + n)) =
      ((carry * 2 ^ (8 * w) + bytesFrom s n w : Nat) : Int)
  | 0, w, carry => by simp [recode_zero, digitsValue, carryOut, bytesFrom]
  | n + 1, w, carry => by
    have ih := digitsValue_recode n (w + 1) (nextCarry s w carry)
    have hshift : (2 : Int) ^ (8 * (w + 1)) = 256 * 2 ^ (8 * w) := by ring
    rw [Nat.add_right_comm w 1 n, Nat.add_assoc w n 1] at ih
    rw [recode_succ, carryOut_nextCarry, digitsValue_cons, digitAt, bytesFrom]
    push_cast at ih ⊢
    rw [hshift] at ih
    linear_combination ih

/-- The digits sum to the scalar: the final carry is 0. -/
theorem digitsValue_digits {s : Nat} (hs : s < 2 ^ 256) : digitsValue (digits s) = s := by
  have h := digitsValue_recode s 33 0 0
  rw [carryOut_final, bytesFrom_eq s hs 33 0 (by omega)] at h
  simp only [Nat.cast_zero, zero_mul, zero_add, add_zero, Nat.mul_zero, pow_zero, Nat.div_one,
    mul_one] at h
  exact h

/-- Settles O24: length and range hold of every recoding, the last digit is the carry into window 32,
and the sum is `digitsValue_digits`. -/
theorem digitsRecodeTheScalar : Obligations.DigitsRecodeTheScalar := by
  intro s hs
  refine ⟨length_recode s 33 0 0, fun d => bounds_of_mem_recode s (Nat.zero_le 1), ?_,
    digitsValue_digits hs⟩
  have hc : carryOut s 32 0 0 ≤ 1 := carryOut_le_one s 32 0 0 (Nat.zero_le 1)
  have hlast : (digits s)[32]? = some (carryOut s 32 0 0 : Int) := by
    rw [digits, getElem?_recode s 0 0 (by omega), Nat.zero_add, digitAt_last s hc]
  rw [hlast]
  obtain h | h := Nat.le_one_iff_eq_zero_or_eq_one.1 hc
  · exact .inl (by rw [h]; rfl)
  · exact .inr (by rw [h]; rfl)

end Sys2Proof.Machine
end

section
/-! Multiples of the base point as pairs of numbers, and the table's entries (44_fixed_base.md R130,
R131). -/

namespace Sys2Proof.Machine

open Laws

theorem affineMul_lt {a : Nat × Nat} : ∀ n, (affineMul n a).1 < P ∧ (affineMul n a).2 < P
  | 0 => ⟨P_pos, P_prime.one_lt⟩
  | n + 1 => affineAdd_lt (affineMul n a) a

section
variable [Fact P.Prime]

/-- The multiples of pairs of numbers are the field's. -/
theorem castPair_affineMul (a : Nat × Nat) : ∀ n, castPair (affineMul n a) = mulK n (castPair a)
  | 0 => by simp [castPair, affineMul, mulK_zero]
  | n + 1 => by rw [affineMul, castPair_affineAdd, castPair_affineMul a n, mulK_succ]

theorem castPair_base : castPair (BX, BY) = baseK := by
  simp [castPair, baseK_eq, affK, basePoint]

/-- A canonical pair that is a multiple of the base point in the field. -/
theorem eq_affineMul_base {a : Nat × Nat} {n : Nat} (ha : a.1 < P ∧ a.2 < P)
    (h : castPair a = mulK n baseK) : a = affineMul n (BX, BY) :=
  eq_of_castPair_eq ha (affineMul_lt n) (by rw [h, castPair_affineMul, castPair_base])

/-- With Z = 1 the affine pair is the pair of the coordinates X and Y. -/
theorem castPair_of_Z_eq_one {q : Point} (hz : q.Z = 1) : castPair (q.X, q.Y) = affK q := by
  simp [castPair, affK, hz]

end

/-! ## The table -/

variable (w j : Nat)

theorem tbl_Z : (tbl w j).Z = 1 := rfl

theorem tbl_T : (tbl w j).T = fmul (tbl w j).X (tbl w j).Y := rfl

theorem tbl_lt : (tbl w j).X < P ∧ (tbl w j).Y < P := ⟨fmul_lt _ _, fmul_lt _ _⟩

/-- Settles O25: `tbl_spec` gives the affine pair of an entry, which is its X and Y since Z is 1. -/
theorem tableHoldsConsecutiveMultiples : Obligations.TableHoldsConsecutiveMultiples := by
  have := fact_P_prime
  intro w j
  obtain ⟨hvalid, hmul⟩ := tbl_spec w j
  have hpair : castPair ((tbl w j).X, (tbl w j).Y) = mulK ((j + 1) * 2 ^ (8 * w)) baseK :=
    (castPair_of_Z_eq_one (tbl_Z w j)).trans hmul
  exact ⟨eq_affineMul_base (tbl_lt w j) hpair, tbl_Z w j, tbl_T w j, hvalid⟩

end Sys2Proof.Machine
end

section
/-! The command word of `SMULB` (30_encoding.md R61, R62, R64). -/

namespace Sys2Proof

theorem decode_smulb (rd : PView) (ra : WReg) :
    decode (commandWord 0x40 (4 * rd) ra 0 0) = .ok (.smulb rd ra) := by
  have hrd := four_mul_view_lt rd
  obtain ⟨-, frd, fra, -⟩ :=
    commandWord_fields (by omega : 0x40 < 256) hrd ra.isLt (Nat.zero_lt_succ 31)
      (Nat.zero_lt_succ 255)
  rw [decode_commandWord (mask := 0xFF183FFF) (by omega) hrd ra.isLt (by omega) (by omega) rfl
    ⟨rfl, four_and_three rd, Nat.and_zero _, rfl, rfl⟩]
  simp only [frd, fra, pOperand_four, wOperand_self]

end Sys2Proof
end

section
/-! The multiplier's loop (44_fixed_base.md R134, R135): its result is canonical, so `SMULB` writes it
whole; it is a fold over the windows; and its affine pair is the scalar's multiple of the base
point's. -/

namespace Sys2Proof.Machine

open Laws

/-! ## The result is canonical -/

/-- Every coordinate is below P. -/
def CanonicalPoint (q : Point) : Prop := q.X < P ∧ q.Y < P ∧ q.Z < P ∧ q.T < P

theorem canonicalPoint_identity : CanonicalPoint identity :=
  ⟨P_pos, P_prime.one_lt, P_prime.one_lt, P_pos⟩

theorem accumulate_canonical (w : Nat) (d : Int) {acc : Point} (h : CanonicalPoint acc) :
    CanonicalPoint (accumulate w d acc) := by
  unfold accumulate
  split
  · exact pointAdd_lt _ _
  · split
    · exact pointAdd_lt _ _
    · exact h

theorem mulBaseFrom_canonical : ∀ (w : Nat) (ds : List Int) {acc : Point}, CanonicalPoint acc →
    CanonicalPoint (mulBaseFrom w ds acc)
  | _, [], _, h => h
  | w, d :: ds, _, h => mulBaseFrom_canonical (w + 1) ds (accumulate_canonical w d h)

theorem exec_smulb_writes (rd : PView) (ra : WReg) (s : State) :
    ∃ t, exec (.smulb rd ra) s = .next t ∧ WroteP rd s t (mulBase (s.intOf ra)) :=
  exec_writesP (exec_smulb s ra rd) (mulBaseFrom_canonical 0 _ canonicalPoint_identity)

/-! ## The loop as a fold -/

/-- The digit picks the entry one below its absolute value. -/
theorem accumulate_eq_ite (w : Nat) (d : Int) (acc : Point) : accumulate w d acc =
    if d > 0 then pointAdd acc (tbl w (d - 1).toNat)
    else if d < 0 then pointAdd acc (pointNeg (tbl w (-d - 1).toNat))
    else acc := by
  rw [accumulate, Int.pred_toNat, Int.pred_toNat]

/-- The loop over a list of digits is the fold over the list's positions, from window `w` on. -/
theorem mulBaseFrom_eq_foldl : ∀ (w : Nat) (ds : List Int) (acc : Point), mulBaseFrom w ds acc =
    (List.range ds.length).foldl (fun acc k => accumulate (w + k) (ds.getD k 0) acc) acc
  | _, [], _ => rfl
  | w, d :: ds, acc => by
    rw [mulBaseFrom, mulBaseFrom_eq_foldl (w + 1) ds, List.length_cons, List.range_succ_eq_map,
      List.foldl_cons, List.foldl_map]
    simp only [List.getD_cons_zero, List.getD_cons_succ, Nat.add_zero, Nat.succ_eq_add_one,
      Nat.add_assoc, Nat.add_comm 1]

theorem mulBase_eq_foldl (s : Nat) : mulBase s =
    (List.range 33).foldl (fun acc w => accumulate w ((digits s).getD w 0) acc) identity := by
  have hlen : (digits s).length = 33 := length_recode s 33 0 0
  rw [mulBase, mulBaseFrom_eq_foldl, hlen]
  simp only [Nat.zero_add]

/-- Settles O26: the point SMULB writes is the loop's, as a fold over the windows. -/
theorem smulbAccumulatesTheTableEntries : Obligations.SmulbAccumulatesTheTableEntries := by
  intro rd ra s
  obtain ⟨t, hx, hpt, hframe⟩ := exec_smulb_writes rd ra s
  refine ⟨decode_smulb rd ra, t, hx, ?_, hframe⟩
  rw [hpt, mulBase_eq_foldl]
  simp only [accumulate_eq_ite]
  rfl

/-! ## The multiple of the base point -/

/-- Settles O27: `mulBase_spec` for the point SMULB writes; a register's content is below 2^256. -/
theorem smulbMultipliesTheBasePoint : Obligations.SmulbMultipliesTheBasePoint := by
  have := fact_P_prime
  intro rd ra s
  obtain ⟨t, hx, hpt, -⟩ := exec_smulb_writes rd ra s
  obtain ⟨hvalid, hmul⟩ := mulBase_spec (s.intOf ra) (intOf_lt s ra)
  refine ⟨t, hx, ?_⟩
  rw [hpt]
  exact ⟨hvalid, eq_affineMul_base (affine_lt _) ((castPair_affine _).trans hmul)⟩

end Sys2Proof.Machine
end

section
/-! The command words of the point codec (30_encoding.md R61, R62, R64). -/

namespace Sys2Proof

theorem decode_pcmp (rd : WReg) (ra : PView) :
    decode (commandWord 0x50 rd (4 * ra) 0 0) = .ok (.pcmp rd ra) := by
  have hra := four_mul_view_lt ra
  obtain ⟨-, frd, fra, -⟩ :=
    commandWord_fields (by omega : 0x50 < 256) rd.isLt hra (Nat.zero_lt_succ 31)
      (Nat.zero_lt_succ 255)
  rw [decode_commandWord (mask := 0xFF00FFFF) (by omega) rd.isLt hra (by omega) (by omega) rfl
    ⟨rfl, Nat.and_zero _, four_and_three ra, rfl, rfl⟩]
  simp only [frd, fra, wOperand_self, pOperand_four]

theorem decode_pdec (rd : PView) (ra : WReg) :
    decode (commandWord 0x51 (4 * rd) ra 0 0) = .ok (.pdec rd ra) := by
  have hrd := four_mul_view_lt rd
  obtain ⟨-, frd, fra, -⟩ :=
    commandWord_fields (by omega : 0x51 < 256) hrd ra.isLt (Nat.zero_lt_succ 31)
      (Nat.zero_lt_succ 255)
  rw [decode_commandWord (mask := 0xFF183FFF) (by omega) hrd ra.isLt (by omega) (by omega) rfl
    ⟨rfl, four_and_three rd, Nat.and_zero _, rfl, rfl⟩]
  simp only [frd, fra, pOperand_four, wOperand_self]

end Sys2Proof
end

section
/-! The point codec (45_point_codec.md): `PCMP` writes the encoding of the affine pair, which is the
pair of quotients by Z; `PDEC` writes the decompressed point, or only its code. -/

namespace Sys2Proof.Machine

open Laws

/-! ## Compression (45_point_codec.md R146) -/

/-- A quotient times its divisor is the dividend, when the divisor is not zero. -/
theorem fmul_finv_mul_mod (x : Nat) {z : Nat} (hz : z % P ≠ 0) :
    fmul x (finv z) * z % P = x % P := by
  have := fact_P_prime
  have hz' : (z : ZMod P) ≠ 0 := fun h => hz (cast_eq_zero_iff.1 h)
  rw [← cast_eq_iff, Nat.cast_mul, cast_fmul, cast_finv, inv_mul_cancel_right₀ hz']

theorem fmul_finv_eq_zero (x : Nat) {z : Nat} (hz : z % P = 0) : fmul x (finv z) = 0 := by
  rw [finv_of_mod_eq_zero hz, fmul, Nat.mul_zero, Nat.zero_mod]

/-- The affine pair, whether or not Z is zero. -/
theorem affine_eq_quotients (q : Point) :
    if q.Z % P = 0 then (affine q).1 = 0 ∧ (affine q).2 = 0
    else (affine q).1 * q.Z % P = q.X % P ∧ (affine q).2 * q.Z % P = q.Y % P := by
  split_ifs with hz
  · exact ⟨fmul_finv_eq_zero _ hz, fmul_finv_eq_zero _ hz⟩
  · exact ⟨fmul_finv_mul_mod _ hz, fmul_finv_mul_mod _ hz⟩

/-- The encoding may reach beyond P, but fits a register. -/
theorem exec_pcmp_writes (rd : WReg) (ra : PView) (s : State) :
    ∃ t, exec (.pcmp rd ra) s = .next t ∧ Wrote rd s t (compress (s.readP ra)) :=
  ⟨_, exec_pcmp s rd ra, intOf_putInt_same s rd _ (compress_lt _), unchanged_putInt s rd _, rfl⟩

/-- Settles O28: PCMP writes `compress` of its view, which encodes the affine pair, and
`affine_eq_quotients` says what that pair is. -/
theorem pcmpEncodesTheAffinePair : Obligations.PcmpEncodesTheAffinePair := by
  intro rd ra s
  obtain ⟨t, hx, hval, hframe⟩ := exec_pcmp_writes rd ra s
  obtain ⟨hlt1, hlt2⟩ := affine_lt (s.readP ra)
  exact ⟨decode_pcmp rd ra, t, hx,
    ⟨_, _, hlt1, hlt2, hval.trans (compress_eq _), affine_eq_quotients _⟩, hframe⟩

/-! ## Decompression (45_point_codec.md R147 to R150) -/

theorem decompress_canonical {c : Word} {q : Point} (h : decompress c = some q) :
    CanonicalPoint q := by
  obtain ⟨hy, hX, -, -, hY, hZ, hT⟩ := decompress_some h
  exact ⟨hX, hY ▸ hy, hZ ▸ P_prime.one_lt, hT ▸ fmul_lt _ _⟩

theorem exec_pdec_writes {rd : PView} {ra : WReg} {s : State} {q : Point}
    (h : decompress (s.readW ra) = some q) :
    ∃ t, exec (.pdec rd ra) s = .next t ∧ WroteP rd s t q :=
  exec_writesP (exec_pdec_some s ra rd h) (decompress_canonical h)

/-- Settles O30: where `decompress` succeeds, `decompress_some` says which point PDEC writes, and this
point lies on the curve; where it fails, `decompress_none` says that the curve has no such point. -/
theorem pdecDecodesExactlyTheCurvePoints : Obligations.PdecDecodesExactlyTheCurvePoints := by
  have := fact_P_prime
  intro rd ra s
  refine ⟨decode_pdec rd ra, ?_⟩
  cases h : decompress (s.readW ra) with
  | some q =>
    obtain ⟨t, hx, hpt, hframe⟩ := exec_pdec_writes (rd := rd) h
    obtain ⟨hy, hX, hcurve, hparity, hY, hZ, hT⟩ := decompress_some h
    refine ⟨t, hx, fun _ => ?_, fun hno => absurd ⟨hy, q.X, hcurve⟩ hno⟩
    rw [hpt]
    rw [hY] at hT
    exact ⟨hX, hcurve, hparity, hY, hZ, hT, hframe⟩
  | none =>
    exact ⟨_, exec_pdec_none s ra rd h, fun hpoint => absurd hpoint (decompress_none h),
      fun _ => ⟨unchanged_raise s _, rfl⟩⟩

end Sys2Proof.Machine
end

section
/-! The ladder command (46_x25519_ladder.md): its command word, the one register and the flag it
writes, and the quotient it writes there. -/

namespace Sys2Proof.Machine

open Laws

theorem decode_xlad (rd ra rb : WReg) :
    decode (commandWord 0x60 rd ra rb 0) = .ok (.xlad rd ra rb) :=
  decode_twoSource rd ra rb (by omega) rfl

theorem ladder_lt (kraw uraw : Word) : ladder kraw uraw < P := fmul_lt _ _

/-- The flag of a result is a statement about the register that holds it. -/
theorem zeroFlag_toNat (v : Word) : zeroFlag v.toNat = decide (v = 0) := by
  rw [zeroFlag, Bool.eq_iff_iff, beq_iff_eq, decide_eq_true_iff]
  exact BitVec.toNat_inj (y := 0#256)

/-- `XLAD` completes with the ladder's number in its destination, and with its flag. -/
theorem exec_xlad_writes (rd ra rb : WReg) (s : State) :
    ∃ t, exec (.xlad rd ra rb) s = .next t ∧
      (t.readW rd).toNat = ladder (s.readW ra) (s.readW rb) ∧ UnchangedBut [rd] s t ∧
      t.status = { code := .ok, zf := decide (t.readW rd = 0) } := by
  have hval := toNat_readW_putInt s rd (ladder_lt (s.readW ra) (s.readW rb))
  refine ⟨_, exec_xlad s rd ra rb, hval, unchanged_putInt s rd _, ?_⟩
  exact congrArg (Status.mk .ok) ((congrArg zeroFlag hval.symm).trans (zeroFlag_toNat _))

/-- The model's loop, from its first pairs to its last, is the reference ladder. -/
theorem toInts_ladderEnd (k u : Nat) : toInts (ladderEnd k u) =
    branchingLadder k u 255 { x2 := 1, z2 := 0, x3 := (u : Int) % (2 ^ 255 - 19), z3 := 1 } :=
  toInts_ladderTurns k u 255 _

/-- What `fmul x (finv z)` is over the integers, whether or not z is zero. -/
theorem fmul_finv_eq_quotient (x z : Nat) :
    if (z : Int) % (2 ^ 255 - 19) = 0 then fmul x (finv z) = 0
    else (fmul x (finv z) : Int) * z % (2 ^ 255 - 19) = x % (2 ^ 255 - 19) := by
  rw [show (2 ^ 255 - 19 : Int) = (P : Int) by decide +kernel]
  split_ifs with hz
  · exact fmul_finv_eq_zero x (by exact_mod_cast hz)
  · exact_mod_cast fmul_finv_mul_mod x (by exact_mod_cast hz)

/-- Settles O32: the model's ladder is the quotient x2/z2 of `ladderEnd`, and `ladderEnd` is the
reference ladder (`toInts_ladderEnd`, from the step and the swap). -/
theorem xladEqualsTheBranchingLadder : Obligations.XladEqualsTheBranchingLadder := by
  intro rd ra rb s
  obtain ⟨t, hx, hval, hframe, hstatus⟩ := exec_xlad_writes rd ra rb s
  refine ⟨decode_xlad rd ra rb, t, hx, ?_, hframe, hstatus⟩
  dsimp only
  rw [← toInts_ladderEnd, hval]
  refine ⟨ladder_lt _ _, ?_⟩
  rw [ladder_eq]
  exact fmul_finv_eq_quotient _ _

end Sys2Proof.Machine
end

section
/-! Encoding and decoding (30_encoding.md R61 to R66): each is the inverse of the other, because
every field of a word is an operand or a masked zero. -/

namespace Sys2Proof

/-- The row of a command's opcode matches its word, and each operand reads its own field back. -/
theorem decode_encode {i : Instr} (hi : WellFormed i) : decode (encode i) = .ok i := by
  cases i with
  | fred rd ra => exact decode_fred rd ra
  | fadd rd ra rb => exact decode_fadd rd ra rb
  | fsub rd ra rb => exact decode_fsub rd ra rb
  | fmul rd ra rb => exact decode_fmul rd ra rb
  | fpsq rd ra rb k => exact decode_fpsq rd ra rb (Nat.lt_succ_of_le (of_decide_eq_true hi))
  | finv rd ra => exact decode_finv rd ra
  | fsqx rd ra => exact decode_fsqx rd ra
  | fsqrt rd ra rb => exact decode_fsqrt rd ra rb
  | clamp rd ra => exact Machine.decode_clamp rd ra
  | padd rd ra rb => exact decode_padd rd ra rb
  | pdbl rd ra => exact decode_pdbl rd ra
  | smulb rd ra => exact decode_smulb rd ra
  | pcmp rd ra => exact decode_pcmp rd ra
  | pdec rd ra => exact decode_pdec rd ra
  | xlad rd ra rb => exact Machine.decode_xlad rd ra rb

/-- Settles O1: by the decoding of each of the fifteen commands. -/
theorem encodedCommandsDecodeBack : Obligations.EncodedCommandsDecodeBack :=
  fun _ => decode_encode

/-! ## What a field of a matching word holds, by the row's mask of it -/

section
variable {f : Nat}

theorem val_wOperand_of_unmasked (hf : f < 32) (_ : f &&& 0 = 0) : (wOperand f).val = f :=
  wOperand_val f hf

theorem four_pOperand_of_masked (hf : f < 32) (h : f &&& 3 = 0) : 4 * (pOperand f).val = f :=
  four_pOperand hf h

/-- A field that is masked whole is zero. -/
theorem zero_eq_of_masked {n : Nat} (hf : f < 2 ^ n) (h : f &&& (2 ^ n - 1) = 0) : 0 = f := by
  rw [← h, Nat.and_two_pow_sub_one_eq_mod, Nat.mod_eq_of_lt hf]

end

variable {op : Nat} {mask c : BusWord} {build : BusWord → Instr}

/-- A word that a row matches is the command word of operands that agree with its fields, when they
do so wherever the mask finds a field zero. -/
theorem commandWord_eq_of_matches {rd ra rb imm : Nat} (hop : op < 256)
    (h : OpcodeRow.matches ⟨commandWord op 0 0 0 0, mask, build⟩ c = true)
    (hmask : opField mask = 255 ∧ bitsOf mask 8 1 = 1)
    (hrd : rdField c < 32 → rdField c &&& rdField mask = 0 → rd = rdField c)
    (hra : raField c < 32 → raField c &&& raField mask = 0 → ra = raField c)
    (hrb : rbField c < 32 → rbField c &&& rbField mask = 0 → rb = rbField c)
    (him : immField c < 256 → immField c &&& immField mask = 0 → imm = immField c) :
    commandWord op rd ra rb imm = c := by
  obtain ⟨fop, frd, fra, frb, f8, fim⟩ :=
    commandWord_fields hop (Nat.zero_lt_succ 31) (Nat.zero_lt_succ 31) (Nat.zero_lt_succ 31)
      (Nat.zero_lt_succ 255)
  have hop' : opField (commandWord op 0 0 0 0) = opField c := op_of_matches hmask.1 h
  obtain ⟨-, mrd, mra, mrb, m8, mim⟩ := (matches_iff _ c).1 h
  rw [hmask.2, f8, Nat.and_one_is_mod,
    Nat.mod_eq_of_lt (show bitsOf c 8 1 < 2 from bitsOf_lt c 8 1)] at m8
  rw [hrd (bitsOf_lt c 19 5) (mrd.trans frd), hra (bitsOf_lt c 14 5) (mra.trans fra),
    hrb (bitsOf_lt c 9 5) (mrb.trans frb), him (bitsOf_lt c 0 8) (mim.trans fim), ← fop, hop']
  exact (eq_commandWord m8).symm

/-- What a row builds from a word it matches is well-formed, and its word is that word. -/
theorem encode_build {row : OpcodeRow} (hrow : row ∈ opcodeMap) (h : row.matches c = true) :
    WellFormed (row.build c) ∧ encode (row.build c) = c := by
  have w {f : Nat} := val_wOperand_of_unmasked (f := f)
  have p {f : Nat} := four_pOperand_of_masked (f := f)
  have noField {f : Nat} := zero_eq_of_masked (f := f) (n := 5)
  have noImm {f : Nat} := zero_eq_of_masked (f := f) (n := 8)
  simp only [opcodeMap, List.cons_append, List.nil_append, List.mem_cons, List.not_mem_nil,
    or_false] at hrow
  obtain rfl | rfl | rfl | rfl | rfl | rfl | rfl | rfl | rfl | rfl | rfl | rfl | rfl | rfl | rfl :=
    hrow
  · exact ⟨rfl, commandWord_eq_of_matches (by omega) h ⟨rfl, rfl⟩ w w noField noImm⟩
  · exact ⟨rfl, commandWord_eq_of_matches (by omega) h ⟨rfl, rfl⟩ w w w noImm⟩
  · exact ⟨rfl, commandWord_eq_of_matches (by omega) h ⟨rfl, rfl⟩ w w w noImm⟩
  · exact ⟨rfl, commandWord_eq_of_matches (by omega) h ⟨rfl, rfl⟩ w w w noImm⟩
  · exact ⟨decide_eq_true (Nat.le_of_lt_succ (bitsOf_lt c 0 8)),
      commandWord_eq_of_matches (by omega) h ⟨rfl, rfl⟩ w w w (fun _ _ => rfl)⟩
  · exact ⟨rfl, commandWord_eq_of_matches (by omega) h ⟨rfl, rfl⟩ w w noField noImm⟩
  · exact ⟨rfl, commandWord_eq_of_matches (by omega) h ⟨rfl, rfl⟩ w w noField noImm⟩
  · exact ⟨rfl, commandWord_eq_of_matches (by omega) h ⟨rfl, rfl⟩ w w w noImm⟩
  · exact ⟨rfl, commandWord_eq_of_matches (by omega) h ⟨rfl, rfl⟩ w w noField noImm⟩
  · exact ⟨rfl, commandWord_eq_of_matches (by omega) h ⟨rfl, rfl⟩ p p p noImm⟩
  · exact ⟨rfl, commandWord_eq_of_matches (by omega) h ⟨rfl, rfl⟩ p p noField noImm⟩
  · exact ⟨rfl, commandWord_eq_of_matches (by omega) h ⟨rfl, rfl⟩ p w noField noImm⟩
  · exact ⟨rfl, commandWord_eq_of_matches (by omega) h ⟨rfl, rfl⟩ w p noField noImm⟩
  · exact ⟨rfl, commandWord_eq_of_matches (by omega) h ⟨rfl, rfl⟩ p w noField noImm⟩
  · exact ⟨rfl, commandWord_eq_of_matches (by omega) h ⟨rfl, rfl⟩ w w w noImm⟩

/-- Settles O2: the word was built by a row that matches it, and a row's mask covers every bit that
is no operand. -/
theorem decodedCommandsEncodeBack : Obligations.DecodedCommandsEncodeBack := by
  intro c i h
  obtain ⟨row, hrow, hmatch, rfl⟩ := row_of_decode h
  exact encode_build hrow hmatch

end Sys2Proof
end

section
/-! The host port (20_memory.md R42, R48, R49): what the step on each of the four transactions is,
and what every step leaves of the port. -/

namespace Sys2Proof.Machine

variable {s t : State} {rest : List HostEvent}

/-! ## One transaction -/

theorem step_memWrite_decoded {c : BusWord} {i : Instr} (hp : s.port = .memWrite 0x000 4 c :: rest)
    (hd : decode c = .ok i) : step s = exec i { s with port := rest } := by
  rw [step_memWrite_command hp, issueCommand, hd]

/-- Settles O4: `issueCommand` on a word that decodes. -/
theorem stepRunsTheDecodedCommand : Obligations.StepRunsTheDecodedCommand :=
  fun _ _ _ _ => step_memWrite_decoded

theorem step_memRead_regOffset {i : WReg} {k : Fin 8}
    (hp : s.port = .memRead (regOffset i k) 4 :: rest) :
    step s = .next (State.reply { s with port := rest } (busWordOf (s.readW i) k)) := by
  rw [step_eq_acceptEvent hp, acceptEvent, readTransaction, windowCell_regOffset]
  rfl

theorem step_memRead_status (hp : s.port = .memRead 0x004 4 :: rest) :
    step s = .next (State.reply { s with port := rest } (statusWord s.status)) := by
  rw [step_eq_acceptEvent hp, acceptEvent, readTransaction, windowCell_status.2 ⟨rfl, rfl⟩]

theorem step_reset (hp : s.port = .reset :: rest) :
    step s = .next (State.externalReset { s with port := rest }) := by
  rw [step_eq_acceptEvent hp, acceptEvent]

/-- Settles O38: a register write is `writeW` of the register with one word replaced. -/
theorem registerWritesReplaceOneWord : Obligations.RegisterWritesReplaceOneWord := by
  intro s i k v rest hp
  refine ⟨_, step_memWrite_regOffset hp, fun n hn => ?_, fun r hr => ?_, rfl, rfl, rfl, rfl⟩
  · rw [readW_writeW_same]
    exact getLsbD_setBusWord _ k v n hn
  · exact readW_writeW_ne _ _ _ _ hr

/-- Settles O39: a read is `reply` of the word read. -/
theorem readsReturnTheirWordAndChangeNothing : Obligations.ReadsReturnTheirWordAndChangeNothing :=
  ⟨fun s i k _ hp => ⟨busWordOf (s.readW i) k, step_memRead_regOffset hp, getLsbD_busWordOf _ k⟩,
    fun _ _ => step_memRead_status⟩

/-! ## The status word and the reset (10_state.md R27, R28, R36) -/

theorem codeNumber_lt (c : ResultCode) : codeNumber c < 4 := by cases c <;> decide

theorem toNat_statusWord (st : Status) :
    (statusWord st).toNat = codeNumber st.code + 16 * st.zf.toNat := by
  have hcode := codeNumber_lt st.code
  have hzf := st.zf.toNat_lt
  rw [statusWord, BitVec.toNat_ofNat, Nat.mod_eq_of_lt (by omega)]

theorem statusWord_lt (st : Status) : (statusWord st).toNat < 2 ^ 5 := by
  have hcode := codeNumber_lt st.code
  have hzf := st.zf.toNat_lt
  rw [toNat_statusWord]
  omega

/-- Settles O40: the word is `CODE + 16·ZF`, with `CODE` below 4. -/
theorem statusWordHasItsLayout : Obligations.StatusWordHasItsLayout := by
  intro st
  have hcode := codeNumber_lt st.code
  refine ⟨?_, ?_, fun n hn => ?_⟩
  · have hmod : (statusWord st).toNat % 16 = codeNumber st.code := by
      rw [toNat_statusWord]
      omega
    rw [hmod]
    cases st.code <;> rfl
  · have hdiv : (codeNumber st.code + 16 * st.zf.toNat) / 2 ^ 4 = st.zf.toNat := by omega
    rw [BitVec.getLsbD, Nat.testBit_eq_decide_div_mod_eq, toNat_statusWord, hdiv]
    cases st.zf <;> rfl
  · exact Nat.testBit_lt_two_pow
      ((statusWord_lt st).trans_le (Nat.pow_le_pow_right (by omega) hn))

theorem statusWord_reset : statusWord .reset = 0 := rfl

/-- Settles O44: by the definitions of the two resets. -/
theorem resetClearsStatus : Obligations.ResetClearsStatus :=
  ⟨fun _ => ⟨statusWord_reset, fun _ => rfl, rfl, rfl⟩, fun _ _ hp =>
    ⟨_, step_reset hp, statusWord_reset, externalReset_port _, externalReset_replies _⟩⟩

/-! ## Commands (10_state.md R24) -/

/-- Settles O45: `exec_cases` names what a command can do, and each of it has its frame. -/
theorem commandsWriteOnlyTheirDestinations : Obligations.CommandsWriteOnlyTheirDestinations := by
  intro i s
  have nothing (c : ResultCode) : UnchangedBut i.destinations s (s.raise c) :=
    (unchanged_raise s c).mono (fun _ h => absurd h List.not_mem_nil)
  obtain ⟨rd, v, hd, -, hx⟩ | ⟨rd, q, hd, -, hx⟩ | ⟨rd, ra, rb, n, rfl, hx⟩ | ⟨_, _, _, -, hx⟩ |
    ⟨_, _, -, hx⟩ := exec_cases s i
  · exact ⟨_, hx, hd ▸ unchanged_writeW s rd v⟩
  · exact ⟨_, hx, hd ▸ unchanged_writeP s rd q⟩
  · exact ⟨_, hx, unchanged_putInt s rd n⟩
  · exact ⟨_, hx, nothing _⟩
  · exact ⟨_, hx, nothing _⟩

theorem exec_unchanged {i : Instr} (h : exec i s = .next t) : UnchangedBut i.destinations s t := by
  obtain ⟨u, hu, hframe⟩ := commandsWriteOnlyTheirDestinations i s
  exact Host.Outcome.next.inj (hu.symm.trans h) ▸ hframe

/-- Settles O46: of what `exec_cases` names, the two ends with a code are `raise`. -/
theorem failedCommandsWriteOnlyTheCode : Obligations.FailedCommandsWriteOnlyTheCode := by
  intro i s t h hcode
  obtain ⟨_, _, -, -, hx⟩ | ⟨_, _, -, -, hx⟩ | ⟨_, _, _, _, -, hx⟩ | ⟨rd, ra, rb, hi, hx⟩ |
    ⟨rd, ra, hi, hx⟩ := exec_cases s i <;> obtain rfl := Host.Outcome.next.inj (hx.symm.trans h)
  · exact absurd rfl hcode
  · exact absurd rfl hcode
  · exact absurd rfl hcode
  · exact ⟨rfl, .inr ⟨rfl, rd, ra, rb, hi⟩⟩
  · exact ⟨rfl, .inl ⟨rfl, rd, ra, hi⟩⟩

/-! ## Every step -/

/-- `step_cases` for a port whose oldest event is known. -/
theorem step_cons_cases {e : HostEvent} (hp : s.port = e :: rest) (h : step s = .next t) :
    (e = .reset ∧ t = State.externalReset { s with port := rest }) ∨
    (∃ offset v, e = .memRead offset 4 ∧ t = State.reply { s with port := rest } v) ∨
    (∃ i k v, e = .memWrite (regOffset i k) 4 v ∧
      t = State.writeW { s with port := rest } i (setBusWord (s.readW i) k v)) ∨
    (∃ c i, e = .memWrite 0 4 c ∧ decode c = .ok i ∧ exec i { s with port := rest } = .next t) ∨
    (∃ c err, e = .memWrite 0 4 c ∧ decode c = .error err ∧
      t = State.raise { s with port := rest } .illegalCommand) := by
  obtain ⟨hnil, -⟩ | ⟨e', rest', hp', hcase⟩ := step_cases h
  · exact absurd (hp.symm.trans hnil) (List.cons_ne_nil _ _)
  · obtain ⟨rfl, rfl⟩ := List.cons.inj (hp.symm.trans hp')
    exact hcase

/-- With no event waiting the core is idle. -/
theorem eq_of_step_of_port_nil (hp : s.port = []) (h : step s = .next t) : t = s := by
  rw [step, hp] at h
  exact (Host.Outcome.next.inj h).symm

/-- Settles O43: `step_cons_cases` names everything a step does, and none of it touches the later
events or drops a reply. -/
theorem stepsConsumeEventsInOrder : Obligations.StepsConsumeEventsInOrder := by
  intro s t e rest hp h
  obtain ⟨-, rfl⟩ | ⟨_, v, -, rfl⟩ | ⟨_, _, _, -, rfl⟩ | ⟨_, _, -, -, hx⟩ | ⟨_, _, -, -, rfl⟩ :=
    step_cons_cases hp h
  · exact ⟨externalReset_port _, [], by simp⟩
  · exact ⟨rfl, [v], rfl⟩
  · exact ⟨rfl, [], by simp⟩
  · obtain ⟨-, hport, hreplies, -⟩ := exec_unchanged hx
    exact ⟨hport, [], by simpa using hreplies⟩
  · exact ⟨rfl, [], by simp⟩

/-- No step adds an event. -/
theorem mem_port_of_step (h : step s = .next t) {e : HostEvent} (he : e ∈ t.port) : e ∈ s.port := by
  cases hp : s.port with
  | nil => rwa [eq_of_step_of_port_nil hp h, hp] at he
  | cons e' rest =>
    obtain ⟨hport, -⟩ := stepsConsumeEventsInOrder s t e' rest hp h
    exact List.mem_cons_of_mem _ (hport ▸ he)

/-- What a step on every event of a kind keeps, every step keeps while only such events wait. -/
theorem step_keeps_while {Inv : State → Prop} {Kind : HostEvent → Prop}
    (hevent : ∀ {s t : State} {e : HostEvent} {rest : List HostEvent}, s.port = e :: rest → Kind e →
      Inv s → step s = .next t → Inv t)
    (hs : Inv s ∧ ∀ e ∈ s.port, Kind e) (h : step s = .next t) : Inv t ∧ ∀ e ∈ t.port, Kind e := by
  obtain ⟨hinv, hport⟩ := hs
  refine ⟨?_, fun e he => hport e (mem_port_of_step h he)⟩
  cases hp : s.port with
  | nil => rwa [eq_of_step_of_port_nil hp h]
  | cons e rest => exact hevent hp (hport e (hp ▸ List.mem_cons_self)) hinv h

/-! ## Legal hosts (60_exceptions.md R175, R178) -/

/-- A multiple of 4 in the register part of the window is the offset of a word. -/
theorem exists_regOffset {offset : Nat} (h4 : offset % 4 = 0) (hlo : 0x400 ≤ offset)
    (hhi : offset < 0x800) : ∃ (i : WReg) (k : Fin 8), offset = regOffset i k :=
  ⟨⟨(offset - 0x400) / 32, by omega⟩, ⟨(offset - 0x400) / 4 % 8, by omega⟩, by
    dsimp only [regOffset]; omega⟩

theorem legal_memRead {offset size : Nat} (h : (HostEvent.memRead offset size).legal = true) :
    size = 4 ∧ (offset = 4 ∨ ∃ (i : WReg) (k : Fin 8), offset = regOffset i k) := by
  simp only [HostEvent.legal, Bool.and_eq_true, Bool.or_eq_true, beq_iff_eq, decide_eq_true_eq] at h
  obtain ⟨⟨hsize, h4⟩, hstatus | ⟨hlo, hhi⟩⟩ := h
  · exact ⟨hsize, .inl hstatus⟩
  · exact ⟨hsize, .inr (exists_regOffset h4 hlo hhi)⟩

theorem legal_memWrite {offset size : Nat} {v : BusWord}
    (h : (HostEvent.memWrite offset size v).legal = true) :
    size = 4 ∧ (offset = 0 ∨ ∃ (i : WReg) (k : Fin 8), offset = regOffset i k) := by
  simp only [HostEvent.legal, Bool.and_eq_true, Bool.or_eq_true, beq_iff_eq, decide_eq_true_eq] at h
  obtain ⟨⟨hsize, h4⟩, hcommand | ⟨hlo, hhi⟩⟩ := h
  · exact ⟨hsize, .inl hcommand⟩
  · exact ⟨hsize, .inr (exists_regOffset h4 hlo hhi)⟩

/-- A legal event is none of the accesses `OnlyOtherAccessesAreRefused` names. -/
theorem step_ne_refused_of_legal {e : HostEvent} (hp : s.port = e :: rest) (he : e.legal = true)
    (r : Refusal) : step s ≠ .refused r := by
  intro hs
  have href := (onlyOtherAccessesAreRefused s e rest hp).1 ⟨r, hs⟩
  cases e with
  | reset => exact href
  | memRead offset size => exact href (legal_memRead he)
  | memWrite offset size v => exact href (legal_memWrite he)

/-- Progress: with legal events waiting the core takes a step. -/
theorem step_next_of_legalPort (h : LegalPort s) : ∃ t, step s = .next t := by
  cases hs : step s with
  | next t => exact ⟨t, rfl⟩
  | fault r => cases r
  | refused r =>
    cases hp : s.port with
    | nil => rw [step, hp] at hs; cases hs
    | cons e rest =>
      exact absurd hs (step_ne_refused_of_legal hp (h e (hp ▸ List.mem_cons_self)) r)

/-- Preservation: the events that still wait were waiting before. -/
theorem legalPort_of_step (h : LegalPort s) (hs : step s = .next t) : LegalPort t :=
  fun e he => h e (mem_port_of_step hs he)

/-- Settles O52: progress and preservation, by induction on the length of the run. -/
theorem legalHostsNeverStopTheCore : Obligations.LegalHostsNeverStopTheCore := by
  intro s h n
  induction n generalizing s with
  | zero => exact ⟨s, rfl⟩
  | succ n ih =>
    obtain ⟨u, hu⟩ := step_next_of_legalPort h
    rw [core_run_succ n hu]
    exact ih u (legalPort_of_step h hu)

/-! ## Retention (10_state.md R25) -/

theorem mayWrite_regWrite (i r : WReg) (k : Fin 8) (v : BusWord) :
    (HostEvent.memWrite (regOffset i k) 4 v).mayWrite r = decide (r = i) := by
  have h0 : regOffset i k ≠ 0 := by unfold regOffset; omega
  have hi : (regOffset i k - 0x400) / 32 = i.val := by unfold regOffset; omega
  rw [HostEvent.mayWrite, if_neg h0, hi]
  exact decide_eq_decide.2 (Fin.ext_iff.symm.trans eq_comm)

theorem mayWrite_command {c : BusWord} {i : Instr} (hd : decode c = .ok i) (r : WReg) :
    (HostEvent.memWrite 0 4 c).mayWrite r = decide (r ∈ i.destinations) := by
  rw [HostEvent.mayWrite, if_pos rfl, hd]

/-- A step on an event that may not write a register keeps it. -/
theorem readW_of_step {e : HostEvent} {r : WReg} (hp : s.port = e :: rest)
    (he : e.mayWrite r = false) (h : step s = .next t) : t.readW r = s.readW r := by
  obtain ⟨rfl, -⟩ | ⟨_, _, -, rfl⟩ | ⟨i, k, _, rfl, rfl⟩ | ⟨c, i, rfl, hd, hx⟩ |
    ⟨_, _, -, -, rfl⟩ := step_cons_cases hp h
  · cases he
  · rfl
  · rw [mayWrite_regWrite, decide_eq_false_iff_not] at he
    exact readW_writeW_ne _ _ _ _ he
  · rw [mayWrite_command hd, decide_eq_false_iff_not] at he
    obtain ⟨hregs, -⟩ := exec_unchanged hx
    exact hregs r he
  · rfl

/-- Settles O53: a step on an event that may not write the register keeps it. -/
theorem unwrittenRegistersAreRetained : Obligations.UnwrittenRegistersAreRetained :=
  fun r _ _ _ => step_keeps_while (Kind := fun e => e.mayWrite r = false)
    fun hp he hv h => (readW_of_step hp he h).trans hv

end Sys2Proof.Machine
end

section
/-! The words of 30_encoding.md R71 and 95_test_vectors.md section 2.7. -/

namespace Sys2Proof

/-- Settles O5: each word is the encoding of its command, and a word that is illegal is so by a bit
its row masks. -/
theorem sampleWordsDecode : Obligations.SampleWordsDecode := by
  refine ⟨decode_encode (i := .fred 0 1) rfl, decode_encode (i := .fadd 0 1 2) rfl,
    decode_encode (i := .fsub 31 30 29) rfl, decode_encode (i := .fmul 3 1 2) rfl,
    decode_encode (i := .fpsq 5 4 4 10) rfl, decode_encode (i := .finv 0 1) rfl,
    decode_encode (i := .fsqx 0 1) rfl, decode_encode (i := .fsqrt 0 1 2) rfl,
    decode_encode (i := .clamp 16 16) rfl, decode_encode (i := .padd 2 0 1) rfl,
    decode_encode (i := .pdbl 2 1) rfl, decode_encode (i := .smulb 0 16) rfl,
    decode_encode (i := .pcmp 17 0) rfl, decode_encode (i := .pdec 1 17) rfl,
    decode_encode (i := .xlad 2 0 1) rfl, ?_, ?_⟩
  · decide +kernel
  · decide +kernel

end Sys2Proof
end

section
/-! What a command does, as data: which command writes what is computed from the state's registers,
and writing it is apart from that. Rules about every command are then rules about the data. -/

namespace Sys2Proof.Machine

open Laws

/-- The one thing a command does (`exec_cases`, with the value it writes). -/
inductive Effect where
  /-- a number into a register -/
  | word (rd : WReg) (n : Nat)
  /-- a point into a view -/
  | point (rd : PView) (q : Point)
  /-- a number into a register, with its flag -/
  | flagged (rd : WReg) (n : Nat)
  /-- a result code and nothing else -/
  | code (c : ResultCode)

/-- The effect on a state. -/
def Effect.apply : Effect → State → State
  | .word rd n, s => (s.putInt rd n).complete
  | .point rd q, s => (s.writeP rd q).complete
  | .flagged rd n, s => ((s.putInt rd n).setZf (zeroFlag n)).complete
  | .code c, s => s.raise c

/-- The effect of a command that finds its result or ends with a code. -/
def Effect.ofOption {α : Type} (f : α → Effect) (c : ResultCode) (o : Option α) : Effect :=
  o.elim (.code c) f

/-- The effect each command's rule gives it. -/
def effect : Instr → State → Effect
  | .fred rd ra, s => .word rd (fred (s.intOf ra))
  | .fadd rd ra rb, s => .word rd (fadd (s.intOf ra) (s.intOf rb))
  | .fsub rd ra rb, s => .word rd (fsub (s.intOf ra) (s.intOf rb))
  | .fmul rd ra rb, s => .word rd (fmul (s.intOf ra) (s.intOf rb))
  | .fpsq rd ra rb k, s => .word rd (fpsq (s.intOf ra) k (s.intOf rb))
  | .finv rd ra, s => .word rd (finv (s.intOf ra))
  | .fsqx rd ra, s => .word rd (fsqx (s.intOf ra))
  | .fsqrt rd ra rb, s => .ofOption (.word rd) .noSquareRoot (sqrtRatio (s.intOf ra) (s.intOf rb))
  | .clamp rd ra, s => .word rd (clamp (s.readW ra)).toNat
  | .padd rd ra rb, s => .point rd (pointAdd (s.readP ra) (s.readP rb))
  | .pdbl rd ra, s => .point rd (pointDouble (s.readP ra))
  | .smulb rd ra, s => .point rd (mulBase (s.intOf ra))
  | .pcmp rd ra, s => .word rd (compress (s.readP ra))
  | .pdec rd ra, s => .ofOption (.point rd) .invalidPoint (decompress (s.readW ra))
  | .xlad rd ra rb, s => .flagged rd (ladder (s.readW ra) (s.readW rb))

/-- A command is its effect. -/
theorem exec_eq_effect (i : Instr) (s : State) : exec i s = .next ((effect i s).apply s) := by
  cases i with
  | fsqrt rd ra rb =>
    rw [effect]
    cases h : sqrtRatio (s.intOf ra) (s.intOf rb) with
    | some x => exact exec_fsqrt_some s rd ra rb h
    | none => exact exec_fsqrt_none s rd ra rb h
  | pdec rd ra =>
    rw [effect]
    cases h : decompress (s.readW ra) with
    | some q => exact exec_pdec_some s ra rd h
    | none => exact exec_pdec_none s ra rd h
  | clamp rd ra =>
    rw [exec_clamp, effect, Effect.apply, State.putInt, BitVec.ofNat_toNat, BitVec.setWidth_eq]
  | _ => rfl

/-! ## What an effect leaves -/

/-- The registers it writes. -/
def Effect.destinations : Effect → List WReg
  | .word rd _ => [rd]
  | .point rd _ => viewRegs rd
  | .flagged rd _ => [rd]
  | .code _ => []

/-- The code it ends with. -/
def Effect.resultCode : Effect → ResultCode
  | .word _ _ => .ok
  | .point _ _ => .ok
  | .flagged _ _ => .ok
  | .code c => c

/-- `ZF` after it, from `ZF` before it. -/
def Effect.zfAfter : Effect → Bool → Bool
  | .word _ _, z => z
  | .point _ _, z => z
  | .flagged _ n, _ => zeroFlag n
  | .code _, z => z

/-- Every value it writes is a canonical field element. -/
def Effect.Canonical : Effect → Prop
  | .word _ n => n < P
  | .point _ q => CanonicalPoint q
  | .flagged _ n => n < P
  | .code _ => True

section
variable (e : Effect) (s s' : State)

theorem Effect.apply_status :
    (e.apply s).status = { code := e.resultCode, zf := e.zfAfter s.status.zf } := by
  cases e <;> rfl

theorem Effect.apply_port : (e.apply s).port = s.port := by cases e <;> rfl

theorem Effect.apply_replies : (e.apply s).replies = s.replies := by cases e <;> rfl

/-- Two states agree on what one effect has written into both. -/
theorem Effect.apply_agree : ∀ r ∈ e.destinations, (e.apply s).readW r = (e.apply s').readW r := by
  cases e with
  | word rd n => exact writeW_agree s s' rd _
  | point rd q => exact writeP_agree s s' rd q
  | flagged rd n => exact writeW_agree s s' rd _
  | code c => exact fun _ hr => absurd hr List.not_mem_nil

/-- The rest of the registers is as before. -/
theorem Effect.apply_frame {r : WReg} (hr : r ∉ e.destinations) :
    (e.apply s).readW r = s.readW r := by
  cases e with
  | word rd n => exact (unchanged_putInt s rd n).1 r hr
  | point rd q => exact (unchanged_writeP s rd q).1 r hr
  | flagged rd n => exact (unchanged_putInt s rd n).1 r hr
  | code c => rfl

/-- The destinations of a canonical effect hold numbers below P. -/
theorem Effect.apply_lt {e : Effect} (he : e.Canonical) {r : WReg} (hr : r ∈ e.destinations) :
    ((e.apply s).readW r).toNat < P := by
  cases e with
  | word rd n =>
    obtain rfl := List.mem_singleton.1 hr
    exact (toNat_readW_putInt s r he).trans_lt he
  | point rd q =>
    obtain ⟨hX, hY, hZ, hT⟩ := he
    have hq : ((s.writeP rd q).complete).readP rd = q := readP_writeP s rd hX hY hZ hT
    simp only [Effect.destinations, viewRegs, List.mem_cons, List.not_mem_nil, or_false] at hr
    obtain rfl | rfl | rfl | rfl := hr
    · exact (congrArg Point.X hq).trans_lt hX
    · exact (congrArg Point.Y hq).trans_lt hY
    · exact (congrArg Point.Z hq).trans_lt hZ
    · exact (congrArg Point.T hq).trans_lt hT
  | flagged rd n =>
    obtain rfl := List.mem_singleton.1 hr
    exact (toNat_readW_putInt s r he).trans_lt he
  | code c => exact absurd hr List.not_mem_nil

end

/-- A command writes its destinations, or ends with a code. -/
theorem effect_cases (i : Instr) (s : State) :
    (effect i s).destinations = i.destinations ∨ ∃ c, c ≠ .ok ∧ effect i s = .code c := by
  cases i with
  | fsqrt rd ra rb =>
    rw [effect]
    cases sqrtRatio (s.intOf ra) (s.intOf rb) with
    | some x => exact .inl rfl
    | none => exact .inr ⟨.noSquareRoot, nofun, rfl⟩
  | pdec rd ra =>
    rw [effect]
    cases decompress (s.readW ra) with
    | some q => exact .inl rfl
    | none => exact .inr ⟨.invalidPoint, nofun, rfl⟩
  | _ => exact .inl rfl

theorem effect_destinations {i : Instr} {s : State} (h : (effect i s).resultCode = .ok) :
    (effect i s).destinations = i.destinations := by
  obtain hd | ⟨c, hc, he⟩ := effect_cases i s
  · exact hd
  · rw [he] at h
    exact absurd h hc

/-- The flag `XLAD` leaves is not the one it found. -/
theorem zfAfter_of_writesZf {i : Instr} (hi : i.writesZf = true) (s : State) (z z' : Bool) :
    (effect i s).zfAfter z = (effect i s).zfAfter z' := by
  obtain ⟨rd, ra, rb, rfl⟩ := eq_xlad_of_writesZf hi
  rfl

/-- Commands with one effect agree on the code, on the destinations and on a flag they write. -/
theorem exec_agree {i : Instr} {s s' : State} (h : effect i s = effect i s') : ∃ t t',
    exec i s = .next t ∧ exec i s' = .next t' ∧ t.status.code = t'.status.code ∧
    (t.status.code = .ok → ∀ r ∈ i.destinations, t.readW r = t'.readW r) ∧
    (i.writesZf → t.status.zf = t'.status.zf) := by
  refine ⟨_, _, exec_eq_effect i s, exec_eq_effect i s', ?_⟩
  rw [← h, Effect.apply_status, Effect.apply_status]
  exact ⟨rfl, fun hcode r hr => Effect.apply_agree _ s s' r (effect_destinations hcode ▸ hr),
    fun hi => zfAfter_of_writesZf hi s _ _⟩

/-! ## Past status (60_exceptions.md R178) -/

/-- The effect is computed from registers. -/
theorem effect_withStatus (i : Instr) (s : State) (st : Status) :
    effect i { s with status := st } = effect i s := by
  cases i <;> rfl

/-- Settles O48: the effect is the same, it writes the same into both states, and a command other
than XLAD leaves the flag it finds. -/
theorem pastStatusDoesNotMatter : Obligations.PastStatusDoesNotMatter := by
  intro i s st
  have hx := exec_eq_effect i s
  have hx' := exec_eq_effect i { s with status := st }
  rw [effect_withStatus] at hx'
  refine ⟨_, _, hx, hx', fun r => ?_, ?_, ?_, ?_, ?_⟩
  · by_cases hr : r ∈ (effect i s).destinations
    · exact Effect.apply_agree _ s _ r hr
    · rw [Effect.apply_frame _ s hr, Effect.apply_frame _ _ hr]
      rfl
  · rw [Effect.apply_status, Effect.apply_status]
  · cases hi : i.writesZf with
    | false => exact exec_keeps_zf hi hx'
    | true =>
      rw [Effect.apply_status, Effect.apply_status]
      exact zfAfter_of_writesZf hi s _ _
  · rw [Effect.apply_port, Effect.apply_port]
  · rw [Effect.apply_replies, Effect.apply_replies]

/-! ## Sources (10_state.md R24) -/

section
variable {s s' : State}

theorem readP_congr {j : PView} (h : ∀ r ∈ viewRegs j, s.readW r = s'.readW r) :
    s.readP j = s'.readP j := by
  simp only [State.readP, State.intOf, h _ (mem_viewRegs j _)]

/-- `PDBL` and `PCMP` do not read T. -/
theorem readP_congr_XYZ {j : PView} (h : ∀ r ∈ viewRegsXYZ j, s.readW r = s'.readW r) :
    ({ s.readP j with T := 0 } : Point) = { s'.readP j with T := 0 } := by
  simp only [viewRegsXYZ, List.forall_mem_cons] at h
  obtain ⟨hX, hY, hZ, -⟩ := h
  simp only [State.readP, State.intOf, hX, hY, hZ]

theorem pointDouble_ignores_T (q : Point) : pointDouble { q with T := 0 } = pointDouble q := rfl

theorem compress_ignores_T (q : Point) : compress { q with T := 0 } = compress q := rfl

/-- The effect is computed from the sources. -/
theorem effect_congr {i : Instr} (h : ∀ r ∈ i.sources, s.readW r = s'.readW r) :
    effect i s = effect i s' := by
  cases i with
  | padd rd ra rb =>
    obtain ⟨ha, hb⟩ := List.forall_mem_append.1 h
    rw [effect, effect, readP_congr ha, readP_congr hb]
  | pdbl rd ra =>
    rw [effect, effect, ← pointDouble_ignores_T, readP_congr_XYZ h, pointDouble_ignores_T]
  | pcmp rd ra =>
    rw [effect, effect, ← compress_ignores_T, readP_congr_XYZ h, compress_ignores_T]
  | _ =>
    simp only [Instr.sources, List.forall_mem_cons] at h
    simp only [effect, State.intOf, h]

/-- Settles O49: equal sources give one effect. -/
theorem resultsDependOnSourcesOnly : Obligations.ResultsDependOnSourcesOnly :=
  fun _ _ _ h => exec_agree (effect_congr h)

end

/-! ## Residues (41_field.md R80) -/

section
variable (a b x k : Nat)

theorem fred_mod : fred (a % P) = fred a := Nat.mod_mod a P
theorem fadd_mod_left : fadd (a % P) b = fadd a b := Nat.mod_add_mod a P b
theorem fadd_mod_right : fadd a (b % P) = fadd a b := Nat.add_mod_mod a b P
theorem fsub_mod_left : fsub (a % P) b = fsub a b := Nat.mod_add_mod a P _
theorem fsub_mod_right : fsub a (b % P) = fsub a b := by rw [fsub, Nat.mod_mod, fsub]
theorem fmul_mod_left : fmul (a % P) b = fmul a b := Nat.mod_mul_mod a b P
theorem fmul_mod_right : fmul a (b % P) = fmul a b := Nat.mul_mod_mod a b P
theorem fsq_mod : fsq (a % P) = fsq a := (Nat.mul_mod a a P).symm
theorem fpsq_mod_left : fpsq (x % P) k b = fpsq x k b := by rw [fpsq, Nat.mod_mod, fpsq]
theorem fpsq_mod_right : fpsq x k (b % P) = fpsq x k b := fmul_mod_right _ b
theorem finv_mod : finv (x % P) = finv x := by rw [finv, Nat.mod_mod, finv]
theorem fsqx_mod : fsqx (x % P) = fsqx x := by rw [fsqx, Nat.mod_mod, fsqx]
theorem sqrtRatio_mod : sqrtRatio (a % P) (b % P) = sqrtRatio a b := by
  simp only [sqrtRatio, Nat.mod_mod]

/-- The coordinates' residues. -/
def Point.residue (q : Point) : Point := { X := q.X % P, Y := q.Y % P, Z := q.Z % P, T := q.T % P }

theorem pointAdd_residue (p q : Point) : pointAdd p.residue q.residue = pointAdd p q := by
  simp only [pointAdd, Point.residue, fadd_mod_left, fadd_mod_right, fsub_mod_left, fsub_mod_right,
    fmul_mod_left, fmul_mod_right]

theorem pointDouble_residue (q : Point) : pointDouble q.residue = pointDouble q := by
  simp only [pointDouble, Point.residue, fadd_mod_left, fadd_mod_right, fsq_mod]

theorem compress_residue (q : Point) : compress q.residue = compress q := by
  simp only [compress, Point.residue, finv_mod, fmul_mod_left]

end

/-- The state with every register at its residue. -/
def State.residue (s : State) : State :=
  { s with w := s.w.map (fun v => BitVec.ofNat 256 (v.toNat % P)) }

theorem readW_residue (s : State) (r : WReg) :
    s.residue.readW r = BitVec.ofNat 256 ((s.readW r).toNat % P) := by
  simp [State.readW, State.residue]

theorem intOf_residue (s : State) (r : WReg) : s.residue.intOf r = s.intOf r % P := by
  rw [State.intOf, readW_residue, BitVec.toNat_ofNat,
    Nat.mod_eq_of_lt ((Nat.mod_lt _ P_pos).trans P_lt_word), State.intOf]

theorem readP_residue (s : State) (j : PView) : s.residue.readP j = (s.readP j).residue := by
  simp only [State.readP, Point.residue, intOf_residue]

/-- A command that computes with field elements has its effect from the residues. -/
theorem effect_residue {i : Instr} (hi : i.readsFieldElements = true) (s : State) :
    effect i s.residue = effect i s := by
  cases i with
  | fred => simp only [effect, intOf_residue, fred_mod]
  | fadd => simp only [effect, intOf_residue, fadd_mod_left, fadd_mod_right]
  | fsub => simp only [effect, intOf_residue, fsub_mod_left, fsub_mod_right]
  | fmul => simp only [effect, intOf_residue, fmul_mod_left, fmul_mod_right]
  | fpsq => simp only [effect, intOf_residue, fpsq_mod_left, fpsq_mod_right]
  | finv => simp only [effect, intOf_residue, finv_mod]
  | fsqx => simp only [effect, intOf_residue, fsqx_mod]
  | fsqrt => simp only [effect, intOf_residue, sqrtRatio_mod]
  | padd => simp only [effect, readP_residue, pointAdd_residue]
  | pdbl => simp only [effect, readP_residue, pointDouble_residue]
  | pcmp => simp only [effect, readP_residue, compress_residue]
  | clamp | smulb | pdec | xlad => cases hi

/-- Settles O50: the states at their residues agree on the sources. -/
theorem fieldSourcesActAsResidues : Obligations.FieldSourcesActAsResidues := by
  intro i s s' hi h
  have hres : effect i s.residue = effect i s'.residue :=
    effect_congr fun r hr => by
      rw [readW_residue, readW_residue]
      exact congrArg _ (h r hr)
  rw [effect_residue hi, effect_residue hi] at hres
  obtain ⟨t, t', hx, hx', hcode, hdest, -⟩ := exec_agree hres
  exact ⟨t, t', hx, hx', hcode, hdest⟩

/-! ## Canonical results (41_field.md R80, 43_edwards_group.md R118, 46_x25519_ladder.md R164) -/

theorem effect_canonical {i : Instr} (s : State) (hclamp : ∀ rd ra, i ≠ .clamp rd ra)
    (hpcmp : ∀ rd ra, i ≠ .pcmp rd ra) : (effect i s).Canonical := by
  cases i with
  | fred => exact fred_lt _
  | fadd => exact fadd_lt _ _
  | fsub => exact fsub_lt _ _
  | fmul => exact fmul_lt _ _
  | fpsq => exact fpsq_lt _ _ _
  | finv => exact finv_lt _
  | fsqx => exact fsqx_lt _
  | fsqrt rd ra rb =>
    rw [effect]
    cases h : sqrtRatio (s.intOf ra) (s.intOf rb) with
    | some x => exact sqrtRatio_lt h
    | none => trivial
  | clamp rd ra => exact absurd rfl (hclamp rd ra)
  | padd => exact pointAdd_lt _ _
  | pdbl => exact pointDouble_lt _
  | smulb => exact mulBaseFrom_canonical 0 _ canonicalPoint_identity
  | pcmp rd ra => exact absurd rfl (hpcmp rd ra)
  | pdec rd ra =>
    rw [effect]
    cases h : decompress (s.readW ra) with
    | some q => exact decompress_canonical h
    | none => trivial
  | xlad => exact ladder_lt _ _

/-- Settles O51: a canonical effect leaves canonical destinations. -/
theorem resultsAreCanonical : Obligations.ResultsAreCanonical := by
  intro i s t h hcode hclamp hpcmp r hr
  obtain rfl := Host.Outcome.next.inj ((exec_eq_effect i s).symm.trans h)
  rw [Effect.apply_status] at hcode
  exact Effect.apply_lt s (effect_canonical s hclamp hpcmp) (effect_destinations hcode ▸ hr)

end Sys2Proof.Machine
end

section
/-! Point traffic (43_edwards_group.md R121): the commands that make points leave every view valid
when it was, and one `SMULB` makes its view valid whatever it held. -/

namespace Sys2Proof.Machine

open Laws

variable {s t : State} {rest : List HostEvent}

/-- Every view holds a valid point. -/
def ValidViews (s : State) : Prop := ∀ j, ValidPoint (s.readP j)

/-- A view whose registers are not among those a command may write keeps its point. -/
theorem readP_of_unchanged {rd j : PView} (h : UnchangedBut (viewRegs rd) s t) (hj : j ≠ rd) :
    t.readP j = s.readP j :=
  readP_congr fun r hr => h.1 r fun hr' => by
    simp only [viewRegs, List.mem_cons, List.not_mem_nil, or_false] at hr hr'
    obtain rfl | rfl | rfl | rfl := hr <;> simp [hj] at hr'

/-- A valid point written into a view: that view is valid, and the others are if they were. -/
theorem validPoint_of_wroteP {rd j : PView} {q : Point} (hw : WroteP rd s t q) (hq : ValidPoint q)
    (hj : j ≠ rd → ValidPoint (s.readP j)) : ValidPoint (t.readP j) := by
  obtain ⟨hpt, hframe, -⟩ := hw
  by_cases h : j = rd
  · rw [h, hpt]
    exact hq
  · rw [readP_of_unchanged hframe h]
    exact hj h

theorem WroteP.port_eq {rd : PView} {q : Point} (hw : WroteP rd s t q) : t.port = s.port := by
  obtain ⟨-, ⟨-, hport, -⟩, -⟩ := hw
  exact hport

theorem validPoint_mulBase (s : State) (ra : WReg) : ValidPoint (mulBase (s.intOf ra)) := by
  have := fact_P_prime
  obtain ⟨hvalid, -⟩ := mulBase_spec (s.intOf ra) (intOf_lt s ra)
  exact hvalid

/-- The point `PDEC` writes is on the curve, with Z = 1 and T = X·Y. -/
theorem validPoint_of_decompress {c : Word} {q : Point} (h : decompress c = some q) :
    ValidPoint q := by
  have := fact_P_prime
  obtain ⟨-, -, hcurve, -, hY, hZ, hT⟩ := decompress_some h
  obtain ⟨hvalid, -⟩ := valid_of_onCurve hZ hT (hY ▸ hcurve)
  exact hvalid

/-- The commands that make points write a valid point, or nothing but a code. -/
theorem exec_makes_point {i : Instr} (hi : i.makesPoints = true) (hs : ValidViews s) :
    (∃ rd q t, exec i s = .next t ∧ WroteP rd s t q ∧ ValidPoint q) ∨
      ∃ c, exec i s = .next (s.raise c) := by
  have := fact_P_prime
  cases i with
  | padd rd ra rb =>
    obtain ⟨t, hx, hw⟩ := exec_padd_writes rd ra rb s
    obtain ⟨hvalid, -⟩ := pointAdd_spec (hs ra) (hs rb)
    exact .inl ⟨_, _, t, hx, hw, hvalid⟩
  | pdbl rd ra =>
    obtain ⟨t, hx, hw⟩ := exec_pdbl_writes rd ra s
    obtain ⟨hvalid, -⟩ := pointDouble_spec (hs ra)
    exact .inl ⟨_, _, t, hx, hw, hvalid⟩
  | smulb rd ra =>
    obtain ⟨t, hx, hw⟩ := exec_smulb_writes rd ra s
    exact .inl ⟨_, _, t, hx, hw, validPoint_mulBase s ra⟩
  | pdec rd ra =>
    cases h : decompress (s.readW ra) with
    | some q =>
      obtain ⟨t, hx, hw⟩ := exec_pdec_writes (rd := rd) h
      exact .inl ⟨_, _, t, hx, hw, validPoint_of_decompress h⟩
    | none => exact .inr ⟨_, exec_pdec_none s ra rd h⟩
  | _ => cases hi

theorem exec_keeps_validViews {i : Instr} (hi : i.makesPoints = true) (hs : ValidViews s)
    (h : exec i s = .next t) : ValidViews t := by
  obtain ⟨rd, q, u, hx, hw, hq⟩ | ⟨c, hx⟩ := exec_makes_point hi hs <;>
    obtain rfl := Host.Outcome.next.inj (hx.symm.trans h)
  · exact fun j => validPoint_of_wroteP hw hq fun _ => hs j
  · exact hs

theorem keepsPoints_regWrite (i : WReg) (k : Fin 8) (v : BusWord) :
    (HostEvent.memWrite (regOffset i k) 4 v).keepsPoints = false := by
  have h0 : (regOffset i k == 0) = false := by rw [beq_eq_false_iff_ne, regOffset]; omega
  rw [HostEvent.keepsPoints, h0, Bool.false_and]

theorem keepsPoints_command {c : BusWord} {i : Instr} (hd : decode c = .ok i) :
    (HostEvent.memWrite 0 4 c).keepsPoints = i.makesPoints := by
  rw [HostEvent.keepsPoints, hd, BEq.rfl, Bool.true_and]

/-- A step on an event of point traffic keeps the views valid. -/
theorem step_keeps_validViews {e : HostEvent} (hp : s.port = e :: rest) (he : e.keepsPoints = true)
    (hs : ValidViews s) (h : step s = .next t) : ValidViews t := by
  obtain ⟨rfl, -⟩ | ⟨_, _, -, rfl⟩ | ⟨i, k, v, rfl, -⟩ | ⟨c, i, rfl, hd, hx⟩ | ⟨_, _, -, -, rfl⟩ :=
    step_cons_cases hp h
  · cases he
  · exact hs
  · rw [keepsPoints_regWrite] at he
    cases he
  · rw [keepsPoints_command hd] at he
    exact exec_keeps_validViews (s := { s with port := rest }) he hs hx
  · exact hs

/-- Settles O54: a step on an event of point traffic keeps the views valid. -/
theorem pointTrafficKeepsPointsValid : Obligations.PointTrafficKeepsPointsValid :=
  fun _ _ => step_keeps_while (Inv := ValidViews) (Kind := fun e => e.keepsPoints = true)
    step_keeps_validViews

/-! ## From a reset to point traffic (70_reset_and_hazards.md R199) -/

/-- The issue of one `SMULB` into each of some views. -/
def smulbs (ra : PView → WReg) (js : List PView) : List HostEvent :=
  js.map fun j => issue (encode (.smulb j (ra j)))

/-- After one `SMULB` into each of some views these views are valid, and so are those that were. -/
theorem run_smulbs (ra : PView → WReg) : ∀ (js : List PView) {s : State},
    s.port = smulbs ra js ++ rest → ∃ t, Sys2Proof.core.run js.length s = .next t ∧
      t.port = rest ∧ ∀ j, j ∈ js ∨ ValidPoint (s.readP j) → ValidPoint (t.readP j)
  | [], s, hp => ⟨s, rfl, hp, fun _ h => h.resolve_left List.not_mem_nil⟩
  | k :: js, s, hp => by
    obtain ⟨u, hx, hw⟩ := exec_smulb_writes k (ra k) { s with port := smulbs ra js ++ rest }
    have hstep : step s = .next u :=
      (step_memWrite_decoded hp (decode_encode (i := .smulb k (ra k)) rfl)).trans hx
    obtain ⟨t, hrun, hrest, hvalid⟩ := run_smulbs ra js hw.port_eq
    refine ⟨t, (core_run_succ js.length hstep).trans hrun, hrest, fun j hj => hvalid j ?_⟩
    by_cases hjs : j ∈ js
    · exact .inl hjs
    · refine .inr (validPoint_of_wroteP hw (validPoint_mulBase _ _) fun hne => ?_)
      exact hj.resolve_left fun hmem => (List.mem_cons.1 hmem).elim hne hjs

/-- Eight `SMULB`, one into each view, begin point traffic from any registers. -/
theorem run_eightSmulbs {ra : PView → WReg} (hp : s.port = eightSmulbs ra ++ rest)
    (hrest : ∀ e ∈ rest, e.keepsPoints = true) :
    ∃ t, Sys2Proof.core.run 8 s = .next t ∧ PointTraffic t ∧ t.port = rest := by
  obtain ⟨t, hrun, hport, hvalid⟩ := run_smulbs ra (List.finRange 8) hp
  rw [List.length_finRange] at hrun
  exact ⟨t, hrun, ⟨fun j => hvalid j (.inl (List.mem_finRange j)), hport ▸ hrest⟩, hport⟩

/-- A register that no waiting event may write holds its contents after a run of any length. -/
theorem run_retains {r : WReg} {v : Word} (hlegal : LegalPort s) (hs : Retained r v s) (n : Nat) :
    ∃ t, Sys2Proof.core.run n s = .next t ∧ t.readW r = v := by
  obtain ⟨t, hrun⟩ := legalHostsNeverStopTheCore s hlegal n
  obtain ⟨hv, -⟩ := core_run_invariant (unwrittenRegistersAreRetained r v) n hs hrun
  exact ⟨t, hrun, hv⟩

/-- Settles O55: retention is an invariant of runs; the eight `SMULB` are `run_eightSmulbs`, from
whatever a reset before them leaves. -/
theorem invariantsHoldAfterReset : Obligations.InvariantsHoldAfterReset := by
  refine ⟨fun contents port r n hlegal hwrite => ?_, fun contents ra rest hrest => ?_,
    fun s ra rest hp hrest => ?_⟩
  · exact run_retains (s := { State.afterReset contents with port := port }) hlegal ⟨rfl, hwrite⟩ n
  · exact run_eightSmulbs rfl hrest
  · rw [core_run_succ 8 (step_reset hp)]
    exact run_eightSmulbs (externalReset_port _) hrest

end Sys2Proof.Machine
end

section
/-! Sums in either order, and the class a compressed point names (43_edwards_group.md R122, R125;
45_point_codec.md R146, R147). -/

namespace Sys2Proof.Machine

open Laws

/-- Every product of the formula is of one operand's coordinate and the other's, so it is the same
number in either order. -/
theorem pointAdd_comm (p q : Point) : pointAdd p q = pointAdd q p := by
  have hC : fmul (fmul p.T D2) q.T = fmul (fmul q.T D2) p.T :=
    eq_of_cast_eq (fmul_lt _ _) (fmul_lt _ _) (by simp only [cast_fmul]; ring)
  have hE0 : fmul (fmul p.Z 2) q.Z = fmul (fmul q.Z 2) p.Z :=
    eq_of_cast_eq (fmul_lt _ _) (fmul_lt _ _) (by simp only [cast_fmul]; ring)
  have hmul (a b : Nat) : fmul a b = fmul b a := by rw [fmul, Nat.mul_comm, fmul]
  simp only [pointAdd, hC, hE0, hmul (fsub p.Y p.X), hmul (fadd p.Y p.X)]

/-- Settles O21: the two sums are one point, and it is written into one view. -/
theorem paddCommutesExactly : Obligations.PaddCommutesExactly := by
  intro rd ra rb s
  rw [exec_padd, exec_padd, pointAdd_comm]

section
variable [Fact P.Prime] {p q : Point}

theorem affine_eq_iff : affine p = affine q ↔ affK p = affK q := by
  rw [← castPair_affine, ← castPair_affine]
  exact ⟨congrArg castPair, eq_of_castPair_eq (affine_lt p) (affine_lt q)⟩

theorem affine_onCurve (hp : ValidPoint p) : OnCurve (affine p).1 (affine p).2 := by
  rw [onCurve_iff]
  have hc := affK_on_curve hp
  rwa [← castPair_affine] at hc

/-- The compressed value names the affine pair: y and the parity of x determine x. -/
theorem compress_eq_iff (hp : ValidPoint p) (hq : ValidPoint q) :
    compress p = compress q ↔ affine p = affine q := by
  refine ⟨fun h => ?_, fun h => by rw [compress_eq, h, compress_eq]⟩
  obtain ⟨hyp, hxp⟩ := compress_parts p
  obtain ⟨hyq, hxq⟩ := compress_parts q
  have hy : (affine p).2 = (affine q).2 := by rw [← hyp, ← hyq, h]
  have hpar : (affine p).1 % 2 = (affine q).1 % 2 := by rw [← hxp, ← hxq, h]
  have hcp := affine_onCurve hp
  have hcq := affine_onCurve hq
  rw [← hy] at hcq
  exact Prod.ext (eq_of_parity (affine_lt p).1 (affine_lt q).1 hcp hcq hpar) hy

end

/-- Settles O29: equal registers hold equal compressed values, hence equal affine pairs. -/
theorem pcmpSeesExactlyTheClass : Obligations.PcmpSeesExactlyTheClass := by
  have := fact_P_prime
  intro rd ra rb s hp hq
  obtain ⟨t, hx, hval, -⟩ := exec_pcmp_writes rd ra s
  obtain ⟨t', hx', hval', -⟩ := exec_pcmp_writes rd rb s
  refine ⟨t, t', hx, hx', ?_⟩
  rw [← BitVec.toNat_inj, hval, hval', compress_eq_iff hp hq, affine_eq_iff, pointEq_iff hp hq]

/-- Where one root is 0 the only root is. -/
theorem eq_zero_of_onCurve [Fact P.Prime] {x y : Nat} (hx : x < P) (h0 : OnCurve 0 y)
    (h : OnCurve x y) : x = 0 := by
  rw [onCurve_iff, CurveK, Nat.cast_zero] at h0
  rw [onCurve_iff, CurveK] at h
  have hmul : (x : K) ^ 2 * (dK * (y : K) ^ 2 + 1) = 0 := by linear_combination h0 - h
  obtain hx0 | hy0 := mul_eq_zero.1 hmul
  · exact eq_of_cast_eq hx P_pos (by rw [Nat.cast_zero]; exact sq_eq_zero_iff.1 hx0)
  · exact absurd hy0 (dysq_ne _)

/-- A compressed valid point decompresses to its affine pair. -/
theorem decompress_of_compress [Fact P.Prime] {p : Point} (hp : ValidPoint p) {c : Word}
    (hc : c.toNat = compress p) : ∃ q, decompress c = some q ∧ affK q = affK p := by
  obtain ⟨hy, hsign⟩ := compress_parts p
  obtain ⟨hlt1, hlt2⟩ := affine_lt p
  have hcurve := affine_onCurve hp
  rw [← hc] at hy hsign
  cases h : decompress c with
  | none => exact absurd ⟨hy ▸ hlt2, _, hy ▸ hcurve⟩ (decompress_none h)
  | some q =>
    refine ⟨q, rfl, ?_⟩
    obtain ⟨-, hX, hq, hpar, hY, hZ, -⟩ := decompress_some h
    rw [hy] at hq hY
    have hXeq : q.X = (affine p).1 := by
      obtain hpar | h0 := hpar
      · exact eq_of_parity hX hlt1 hq hcurve (hpar.trans hsign)
      · rw [h0] at hq ⊢
        exact (eq_zero_of_onCurve hlt1 hq hcurve).symm
    rw [← castPair_of_Z_eq_one hZ, hXeq, hY, ← castPair_affine]

/-- Settles O31: the register holds the compressed point when PDEC reads it. -/
theorem pdecInvertsPcmp : Obligations.PdecInvertsPcmp := by
  have := fact_P_prime
  intro rd pd pa s hp
  obtain ⟨t, hx, hval, -⟩ := exec_pcmp_writes rd pa s
  obtain ⟨q, hq, haff⟩ := decompress_of_compress hp hval
  obtain ⟨t', hx', hpt, -, hstatus⟩ := exec_pdec_writes (rd := pd) hq
  have hvalid := validPoint_of_decompress hq
  refine ⟨t, t', hx, hx', by rw [hstatus], ?_⟩
  rw [hpt]
  exact ⟨hvalid, (pointEq_iff hvalid hp).2 haff⟩

end Sys2Proof.Machine
end

section
/-! The identities of the field helpers (41_field.md R92), clamped scalars (42_bytes_clamp.md R102)
and the constants of the curve (43_edwards_group.md R113 to R115, 46_x25519_ladder.md R161). -/

namespace Sys2Proof.Machine

open Laws

/-! ## Identities (41_field.md R92) -/

theorem fmul_finv_self (x : Nat) : fmul x (finv x) = if x % P = 0 then 0 else 1 := by
  split_ifs with h
  · exact fmul_finv_eq_zero x h
  · exact mul_finv_mod h

theorem cast_finv_eq_pow (x : Nat) : ((finv x : Nat) : ZMod P) = (x : ZMod P) ^ (P - 2) := by
  rw [finv_eq_pow, cast_mod_P, Nat.cast_pow, cast_mod_P]

/-- The inverse from `fsqx`: the exponents are (2^252 - 3)·2^3 + 3 = P - 2. -/
theorem finv_eq_fpsq (x : Nat) : finv x = fpsq (fsqx x) 3 (fmul (fsq x) x) := by
  have hexp : P - 2 = (2 ^ 252 - 3) * 2 ^ 3 + (2 + 1) := by decide +kernel
  apply eq_of_cast_eq (finv_lt x) (fpsq_lt _ _ _)
  rw [cast_finv_eq_pow, cast_fpsq, cast_fsqx, cast_fmul, cast_fsq, hexp, pow_add, pow_mul,
    pow_succ (x : ZMod P) 2]

theorem fpsq_add (x j k : Nat) : fpsq x (j + k) 1 = fpsq (fpsq x j 1) k 1 := by
  apply eq_of_cast_eq (fpsq_lt _ _ _) (fpsq_lt _ _ _)
  simp only [cast_fpsq, Nat.cast_one, mul_one]
  rw [pow_add, pow_mul]

theorem fadd_fsub (a b : Nat) : fadd (fsub a b) b = a % P := by
  apply eq_of_cast_eq (fadd_lt _ _) (Nat.mod_lt _ P_pos)
  rw [cast_fadd, cast_fsub, cast_mod_P, sub_add_cancel]

/-- Settles O14: the four identities hold in the field of P. -/
theorem fieldIdentitiesHold : Obligations.FieldIdentitiesHold :=
  ⟨fmul_finv_self, finv_eq_fpsq, fpsq_add, fadd_fsub⟩

/-! ## Clamped scalars -/

theorem le_clamp (v : Word) : 2 ^ 254 ≤ (clamp v).toNat :=
  Nat.ge_two_pow_of_testBit (getLsbD_clamp_eq_ite v (by omega : 254 < 256))

/-- A clamped scalar depends on the bits 3 to 253 only. -/
theorem clamp_congr {v v' : Word} (h : ∀ n, 3 ≤ n → n < 254 → v.getLsbD n = v'.getLsbD n) :
    clamp v = clamp v' := by
  apply BitVec.eq_of_getLsbD_eq
  intro n hn
  rw [getLsbD_clamp_eq_ite v hn, getLsbD_clamp_eq_ite v' hn]
  split_ifs with hclear hset
  · rfl
  · rfl
  · exact h n (by omega) (by omega)

theorem clamp_clamp (v : Word) : clamp (clamp v) = clamp v :=
  clamp_congr fun n h3 h254 => by
    rw [getLsbD_clamp_eq_ite v (by omega), if_neg (by omega), if_neg (by omega)]

/-- Settles O16: by the bits of a clamped scalar. -/
theorem clampedScalarsStayClamped : Obligations.ClampedScalarsStayClamped :=
  fun v => ⟨clamp_mod_eight v, le_clamp v, clamp_lt v, clamp_clamp v⟩

/-! ## Constants -/

/-- d is no square, in numbers. -/
theorem sq_mod_ne_D (x : Nat) : x ^ 2 % P ≠ D := by
  intro h
  have hsq : (D : K) = x * x := by rw [← h, cast_mod_P, Nat.cast_pow, sq]
  exact D_not_square ⟨x, hsq⟩

theorem base_onCurve : OnCurve BX BY := by
  unfold OnCurve
  decide +kernel

/-- N times the base point is the identity: the multiplier computes it. -/
theorem affineMul_groupOrder : affineMul groupOrder (BX, BY) = (0, 1) := by
  have := fact_P_prime
  obtain ⟨-, hmul⟩ := mulBase_spec groupOrder (by decide +kernel)
  have hpoint : affine (mulBase groupOrder) = (0, 1) := by decide +kernel
  rw [← eq_affineMul_base (affine_lt _) ((castPair_affine _).trans hmul), hpoint]

theorem SQRTM1_eq_pow : SQRTM1 = 2 ^ ((P - 1) / 4) % P := by
  rw [← fpow_eq 2 255 ((P - 1) / 4) (by decide +kernel)]
  decide +kernel

/-- Settles O18: `D_not_square`, the order of the base point and the power are lemmas; the other
clauses compute. -/
theorem constantsMeetTheirDefinitions : Obligations.ConstantsMeetTheirDefinitions := by
  have hP : (2 ^ 255 - 19 : Nat) = P := rfl
  unfold Obligations.ConstantsMeetTheirDefinitions
  rw [hP]
  exact ⟨by decide +kernel, by decide +kernel, rfl, sq_mod_ne_D, by decide +kernel,
    by decide +kernel, by decide +kernel, by decide +kernel, rfl, base_onCurve, valid_basePoint,
    affineMul_groupOrder, by decide +kernel, SQRTM1_eq_pow, by decide +kernel, by decide +kernel⟩

end Sys2Proof.Machine
end

section
/-! `XLAD` on the curve (46_x25519_ladder.md R160 to R169): what of its sources it depends on, the u
of the points of small order, and the u of every other point. -/

namespace Sys2Proof.Machine

open Laws

/-! ## The bits with no effect (46_x25519_ladder.md R160, R164) -/

theorem ladderStep_mod (x1 : Nat) (q : Pairs) : ladderStep (x1 % P) q = ladderStep x1 q := by
  simp only [ladderStep, fmul_mod_left]

theorem ladderTurns_mod (k x1 : Nat) : ∀ (n : Nat) (q : Pairs),
    ladderTurns k (x1 % P) n q = ladderTurns k x1 n q
  | 0, _ => rfl
  | n + 1, q => by
    simp only [ladderTurns_succ, branchingTurn, ladderStep_mod]
    exact ladderTurns_mod k x1 n _

theorem ladderEnd_mod (k u : Nat) : ladderEnd k (u % P) = ladderEnd k u := by
  rw [ladderEnd, ladderTurns_mod, Nat.mod_mod, ladderEnd]

/-- The ladder depends on the clamped scalar and the residue of the masked u. -/
theorem ladder_congr {a a' b b' : Word} (ha : clamp a = clamp a')
    (hb : b.toNat % 2 ^ 255 % P = b'.toNat % 2 ^ 255 % P) : ladder a b = ladder a' b' := by
  rw [ladder_eq, ladder_eq, ← ladderEnd_mod, hb, ladderEnd_mod, ha]

/-- Settles O34: equal clamped scalars and residues give one result, and the flag is the result's.
-/
theorem xladIgnoresTheMaskedBits : Obligations.XladIgnoresTheMaskedBits := by
  intro rd ra rb s s' ha hb
  obtain ⟨t, hx, hval, -, hstatus⟩ := exec_xlad_writes rd ra rb s
  obtain ⟨t', hx', hval', -, hstatus'⟩ := exec_xlad_writes rd ra rb s'
  have heq : t.readW rd = t'.readW rd := by
    rw [← BitVec.toNat_inj, hval, hval', ladder_congr (clamp_congr ha) hb]
  exact ⟨t, t', hx, hx', heq, by rw [hstatus, hstatus', heq]⟩

/-! ## Small order without a curve point: u = 0 and u = -1

The point of u = 0 is (0, -1), where the map to the Edwards curve has no inverse; that of u = -1 is
no point of it. Both are followed through the turns by the products that stay zero. -/

theorem ladder_eq_zero {kraw uraw : Word}
    (h : ((ladderEnd (clamp kraw).toNat (uraw.toNat % 2 ^ 255)).z2 : K) = 0) :
    ladder kraw uraw = 0 := by
  rw [ladder_eq, fmul_finv_eq_zero _ (cast_eq_zero_iff.1 h)]

section
variable {x1 : Nat} {q : Pairs}

/-- Doubling (x : z) gives the z-coordinate 4·x·z times a factor. -/
theorem cast_ladderStep_z2 : ((ladderStep x1 q).z2 : K) =
    4 * (q.x2 * q.z2) * ((q.x2 + q.z2) ^ 2 + A24 * (4 * (q.x2 * q.z2))) := by
  simp only [ladderStep, cast_fmul, cast_fadd, cast_fsq, cast_fsub]
  ring

theorem cast_ladderStep_x2 : ((ladderStep x1 q).x2 : K) = ((q.x2 + q.z2) * (q.x2 - q.z2)) ^ 2 := by
  simp only [ladderStep, cast_fmul, cast_fadd, cast_fsq, cast_fsub]
  ring

/-- Both pairs stand for the identity or the point with u = 0. -/
def OrderTwo (q : Pairs) : Prop := (q.x2 : K) * q.z2 = 0 ∧ (q.x3 : K) * q.z3 = 0

theorem orderTwo_exchange (h : OrderTwo q) : OrderTwo (exchange q) := h.symm

/-- From such pairs a step with u = 0 gives the z-coordinate 0 twice. -/
theorem ladderStep_of_orderTwo (hu : (x1 : K) = 0) (h : OrderTwo q) :
    ((ladderStep x1 q).z2 : K) = 0 ∧ ((ladderStep x1 q).z3 : K) = 0 := by
  obtain ⟨h2, -⟩ := h
  refine ⟨by rw [cast_ladderStep_z2, h2]; ring, ?_⟩
  rw [ladderStep, cast_fmul, hu, zero_mul]

theorem branchingTurn_of_orderTwo (hu : (x1 : K) = 0) (bit : Bool) (h : OrderTwo q) :
    ((branchingTurn bit x1 q).z2 : K) = 0 ∧ ((branchingTurn bit x1 q).z3 : K) = 0 := by
  cases bit with
  | false => exact ladderStep_of_orderTwo hu h
  | true => exact (ladderStep_of_orderTwo hu (orderTwo_exchange h)).symm

theorem ladderTurns_of_orderTwo (hu : (x1 : K) = 0) (k : Nat) : ∀ (t : Nat) {q : Pairs},
    OrderTwo q → ((ladderTurns k x1 (t + 1) q).z2 : K) = 0
  | 0, _, h => (branchingTurn_of_orderTwo hu _ h).1
  | t + 1, q, h => by
    obtain ⟨h2, h3⟩ := branchingTurn_of_orderTwo hu (k.testBit (t + 1)) h
    rw [ladderTurns_succ]
    exact ladderTurns_of_orderTwo hu k t ⟨by rw [h2, mul_zero], by rw [h3, mul_zero]⟩

/-- u = 0: the result is 0 for every scalar. -/
theorem ladder_of_zero (kraw : Word) {uraw : Word} (hu : ((uraw.toNat % 2 ^ 255 : Nat) : K) = 0) :
    ladder kraw uraw = 0 := by
  refine ladder_eq_zero (ladderTurns_of_orderTwo hu _ 254 ⟨?_, ?_⟩)
  · rw [Nat.cast_zero, mul_zero]
  · rw [cast_mod_P, hu, zero_mul]

/-- Each pair stands for the identity, the point with u = 0 or one with u = -1, one of them for one
with u = -1: two consecutive multiples of a point with u = -1. -/
def OrderFour (q : Pairs) : Prop :=
  (q.x2 : K) * q.z2 * (q.x2 + q.z2) = 0 ∧ (q.x3 : K) * q.z3 * (q.x3 + q.z3) = 0 ∧
    ((q.x2 : K) + q.z2) * (q.x3 + q.z3) = 0

theorem orderFour_exchange (h : OrderFour q) : OrderFour (exchange q) := by
  obtain ⟨h2, h3, h23⟩ := h
  exact ⟨h3, h2, by rw [mul_comm]; exact h23⟩

/-- The double of such a pair stands for the identity or the point with u = 0. -/
theorem ladderStep_double_of_orderFour (h : OrderFour q) :
    ((ladderStep x1 q).x2 : K) * (ladderStep x1 q).z2 = 0 := by
  obtain ⟨h2, -, -⟩ := h
  rw [cast_ladderStep_x2, cast_ladderStep_z2]
  linear_combination 4 * (q.x2 - q.z2) ^ 2 * (q.x2 + q.z2) *
    (((q.x2 : K) + q.z2) ^ 2 + A24 * (4 * (q.x2 * q.z2))) * h2

/-- With u = -1 the sum of the two pairs stands for a point with u = -1. -/
theorem ladderStep_add_of_orderFour (hu : (x1 : K) = -1) (h : OrderFour q) :
    ((ladderStep x1 q).x3 : K) + (ladderStep x1 q).z3 = 0 := by
  obtain ⟨-, -, h23⟩ := h
  simp only [ladderStep, cast_fmul, cast_fadd, cast_fsq, cast_fsub, hu]
  linear_combination 4 * (q.x3 - q.z3) * (q.x2 - q.z2) * h23

theorem ladderStep_orderFour (hu : (x1 : K) = -1) (h : OrderFour q) :
    OrderFour (ladderStep x1 q) := by
  have h2 := ladderStep_double_of_orderFour (x1 := x1) h
  have h3 := ladderStep_add_of_orderFour hu h
  exact ⟨by rw [h2, zero_mul], by rw [h3, mul_zero], by rw [h3, mul_zero]⟩

theorem branchingTurn_orderFour (hu : (x1 : K) = -1) (bit : Bool) (h : OrderFour q) :
    OrderFour (branchingTurn bit x1 q) := by
  cases bit with
  | false => exact ladderStep_orderFour hu h
  | true => exact orderFour_exchange (ladderStep_orderFour hu (orderFour_exchange h))

/-- A scalar that is a multiple of 4 ends with two doublings. -/
theorem ladderTurns_of_orderFour (hu : (x1 : K) = -1) {k : Nat} (h0 : k.testBit 0 = false)
    (h1 : k.testBit 1 = false) : ∀ (t : Nat) {q : Pairs}, OrderFour q →
    ((ladderTurns k x1 (t + 2) q).z2 : K) = 0
  | 0, q, h => by
    have hdouble : ((ladderStep x1 q).x2 : K) * (ladderStep x1 q).z2 = 0 :=
      ladderStep_double_of_orderFour h
    simp only [ladderTurns, branchingTurn, h0, h1, Bool.false_eq_true, if_false]
    rw [cast_ladderStep_z2, hdouble]
    ring
  | t + 1, q, h =>
    ladderTurns_of_orderFour hu h0 h1 t (branchingTurn_orderFour hu (k.testBit (t + 2)) h)

/-- u = -1: the result is 0 for every scalar. -/
theorem ladder_of_neg_one (kraw : Word) {uraw : Word}
    (hu : ((uraw.toNat % 2 ^ 255 : Nat) : K) = -1) : ladder kraw uraw = 0 := by
  have hbit (n : Nat) (hn : n < 3) : (clamp kraw).toNat.testBit n = false :=
    (getLsbD_clamp_eq_ite kraw (by omega)).trans (if_pos (.inl hn))
  refine ladder_eq_zero
    (ladderTurns_of_orderFour hu (hbit 0 (by omega)) (hbit 1 (by omega)) 253 ⟨?_, ?_, ?_⟩)
  · rw [Nat.cast_zero, mul_zero, zero_mul]
  · rw [cast_mod_P, hu, Nat.cast_one]; ring
  · rw [cast_mod_P, hu, Nat.cast_one]; ring

end

/-! ## Every curve point (46_x25519_ladder.md R164) -/

theorem eight_dvd_clamp (v : Word) : 8 ∣ (clamp v).toNat :=
  Nat.dvd_of_mod_eq_zero (clamp_mod_eight v)

section
variable [Fact P.Prime] {p : K × K}

theorem uOf_identity : uOf (0, 1) = 0 := by simp [uOf]

theorem mulK_identity : ∀ n, mulK n (0, 1) = (0, 1)
  | 0 => rfl
  | n + 1 => by rw [mulK_succ, addK_zero, mulK_identity n]

theorem mulK_of_dvd (hp : CurveK p) {n k : Nat} (hn : mulK n p = (0, 1)) (h : n ∣ k) :
    mulK k p = (0, 1) := by
  obtain ⟨m, rfl⟩ := h
  rw [Nat.mul_comm, ← mulK_mul hp, hn, mulK_identity]

/-- A curve point with y = ±1 has x = 0. -/
theorem fst_eq_zero_of_sq (hp : CurveK p) (hy : p.2 ^ 2 = 1) : p.1 = 0 := by
  rw [CurveK, hy] at hp
  have hmul : p.1 ^ 2 * (dK + 1) = 0 := by linear_combination -hp
  exact sq_eq_zero_iff.1 ((mul_eq_zero.1 hmul).resolve_right dK_succ_ne)

/-- The points with y = ±1 have order 1 and 2. -/
theorem mulK_two_of_sq (hp : CurveK p) (hy : p.2 ^ 2 = 1) : mulK 2 p = (0, 1) := by
  have hx := fst_eq_zero_of_sq hp hy
  rw [mulK_succ 1, mulK_one, addK, hx]
  simp [← sq, hy]

/-- `ladder_spec` without its exceptions: the ladder takes the u of a curve point to the u of the
clamped multiple, where the identity and the point of order 2 both have the u 0. -/
theorem cast_ladder_of_curve (hp : CurveK p) (kraw : Word) {uraw : Word}
    (hu : ((uraw.toNat % 2 ^ 255 : Nat) : K) = uOf p) :
    ((ladder kraw uraw : Nat) : K) = uOf (mulK (clamp kraw).toNat p) := by
  by_cases hy : p.2 ^ 2 = 1
  · have hu0 : uOf p = 0 := by
      obtain h | h := sq_eq_one_iff.1 hy
      · rw [uOf, h, sub_self, div_zero]
      · rw [uOf, h, add_neg_cancel, zero_div]
    have h2 : 2 ∣ (clamp kraw).toNat := (by omega : 2 ∣ 8).trans (eight_dvd_clamp kraw)
    rw [mulK_of_dvd hp (mulK_two_of_sq hp hy) h2, uOf_identity, ladder_of_zero kraw (hu.trans hu0),
      Nat.cast_zero]
  · have hminus : 1 - p.2 ≠ 0 := fun h => hy (by linear_combination (-1 - p.2) * h)
    have hplus : 1 + p.2 ≠ 0 := fun h => hy (by linear_combination (p.2 - 1) * h)
    exact ladder_spec hp kraw uraw (by rw [hu, uOf, div_mul_cancel₀ _ hminus]) hplus

end

/-- Integers have one remainder when they are equal in the field. -/
theorem emod_eq_iff (a b : Int) :
    a % (2 ^ 255 - 19) = b % (2 ^ 255 - 19) ↔ (a : K) = (b : K) := by
  have hP : (2 ^ 255 - 19 : Int) = (P : Int) := by decide +kernel
  rw [ZMod.intCast_eq_intCast_iff, Int.ModEq, hP]

/-- The u-coordinate of an affine pair over the integers: 0 for the identity's, else the quotient.
-/
theorem quotient_of_cast_eq_uOf [Fact P.Prime] {r : Nat} {q : Nat × Nat} (hr : r < P) (hq : q.2 < P)
    (h : (r : K) = uOf (castPair q)) :
    if q.2 = 1 then r = 0
    else (r : Int) * (1 - q.2) % (2 ^ 255 - 19) = (1 + q.2) % (2 ^ 255 - 19) := by
  rw [uOf, castPair] at h
  split_ifs with h1
  · apply eq_of_cast_eq hr P_pos
    rw [h, h1, Nat.cast_one, sub_self, div_zero, Nat.cast_zero]
  · have hne : (1 : K) - q.2 ≠ 0 := fun h0 =>
      h1 (eq_of_cast_eq hq P_prime.one_lt (by rw [Nat.cast_one, ← sub_eq_zero.1 h0]))
    rw [emod_eq_iff]
    push_cast
    rw [h, div_mul_cancel₀ _ hne]

/-- The u-coordinate of a curve point, given without the quotient. -/
theorem eq_uOf_of_mul [Fact P.Prime] {u x y : K} (h : u * (1 - y) = 1 + y) :
    u = uOf (x, y) := by
  have hne : 1 - y ≠ 0 := by
    intro h0
    rw [h0, mul_zero] at h
    exact two_ne_zero_K (by linear_combination h0 - h)
  rw [uOf, eq_div_iff hne, h]

/-- Settles O33: `cast_ladder_of_curve`, cleared of the quotients. -/
theorem xladMultipliesOnTheCurve : Obligations.XladMultipliesOnTheCurve := by
  have := fact_P_prime
  intro rd ra rb s x y hcurve hu
  obtain ⟨t, hx, hval, -⟩ := exec_xlad_writes rd ra rb s
  simp only [emod_eq_iff, Int.cast_mul, Int.cast_sub, Int.cast_add, Int.cast_one,
    Int.cast_natCast] at hu
  have hp : CurveK (castPair (x, y)) := (onCurve_iff x y).1 hcurve
  have hladder := cast_ladder_of_curve hp (s.readW ra) (uraw := s.readW rb)
    (eq_uOf_of_mul hu)
  rw [← hval, ← castPair_affineMul] at hladder
  have hlt : (t.readW rd).toNat < P := hval ▸ ladder_lt _ _
  obtain ⟨-, hq⟩ := affineMul_lt (a := (x, y)) (clamp (s.readW ra)).toNat
  exact ⟨t, hx, hlt, quotient_of_cast_eq_uOf hlt hq hladder⟩

/-! ## Low-order u (46_x25519_ladder.md R164, R165, R169) -/

theorem exec_xlad_of_ladder_eq_zero (rd : WReg) {ra rb : WReg} {s : State}
    (h : ladder (s.readW ra) (s.readW rb) = 0) : ∃ t, exec (.xlad rd ra rb) s = .next t ∧
      t.readW rd = 0 ∧ t.status = { code := .ok, zf := true } := by
  obtain ⟨t, hx, hval, -, hstatus⟩ := exec_xlad_writes rd ra rb s
  have hzero : t.readW rd = 0 := BitVec.eq_of_toNat_eq (hval.trans h)
  exact ⟨t, hx, hzero, by rw [hstatus, hzero]; rfl⟩

/-- Settles O35: u is 0 in the field. -/
theorem xladOfZeroUSetsTheFlag : Obligations.XladOfZeroUSetsTheFlag :=
  fun rd _ _ _ hu => exec_xlad_of_ladder_eq_zero rd (ladder_of_zero _ (cast_eq_zero_iff.2 hu))

/-- u is the u-coordinate of the curve point (x, y), written in numbers. -/
def IsUOf (u x y : Nat) : Prop := OnCurve x y ∧ fmul u (fsub 1 y) = fadd 1 y

theorem IsUOf.curveK {u x y : Nat} (h : IsUOf u x y) : CurveK (castPair (x, y)) := by
  obtain ⟨hcurve, -⟩ := h
  exact (onCurve_iff x y).1 hcurve

theorem IsUOf.cast_eq [Fact P.Prime] {u x y : Nat} (h : IsUOf u x y) :
    (u : K) = uOf (castPair (x, y)) := by
  obtain ⟨-, hu⟩ := h
  have hcast := congrArg (Nat.cast : Nat → K) hu
  simp only [cast_fmul, cast_fsub, cast_fadd, Nat.cast_one] at hcast
  exact eq_uOf_of_mul hcast

/-- The u of a point whose order divides 8: a clamped scalar takes the point to the identity. -/
theorem ladder_of_torsion {u x y : Nat} (h : IsUOf u x y) (h8 : affineMul 8 (x, y) = (0, 1))
    (kraw : Word) {uraw : Word} (hu : uraw.toNat % 2 ^ 255 = u) : ladder kraw uraw = 0 := by
  have := fact_P_prime
  have hmul : mulK 8 (castPair (x, y)) = (0, 1) := by
    rw [← castPair_affineMul, h8, castPair, Nat.cast_zero, Nat.cast_one]
  apply eq_of_cast_eq (ladder_lt _ _) P_pos
  rw [cast_ladder_of_curve h.curveK kraw (hu ▸ h.cast_eq),
    mulK_of_dvd h.curveK hmul (eight_dvd_clamp kraw), uOf_identity, Nat.cast_zero]

/-- A point of order 4 with u = 1, and two of order 8. -/
theorem isUOf_orderFour : IsUOf 1 SQRTM1 0 ∧ IsUOf (P + 1) SQRTM1 0 ∧
    affineMul 8 (SQRTM1, 0) = (0, 1) := by
  unfold IsUOf OnCurve
  decide +kernel

/-- The x of the points of order 8 below. -/
def orderEightX : Nat := 0x602a465ff9c6b5d716cc66cdc721b544a3e6c38fec1a1dc7215eb9b93aba2ea3
/-- The y of a point of order 8. -/
def orderEightY : Nat := 0x7a03ac9277fdc74ec6cc392cfa53202a0f67100d760b3cba4fd84d3d706a17c7
/-- The y of another. -/
def orderEightY' : Nat := 0x5fc536d880238b13933c6d305acdfd5f098eff289f4c345b027b2c28f95e826

theorem isUOf_orderEight :
    IsUOf 0x00b8495f16056286fdb1329ceb8d09da6ac49ff1fae35616aeb8413b7c7aebe0
      orderEightX orderEightY ∧
    affineMul 8 (orderEightX, orderEightY) = (0, 1) := by
  unfold IsUOf OnCurve
  decide +kernel

theorem isUOf_orderEight' :
    IsUOf 0x57119fd0dd4e22d8868e1c58c45c44045bef839c55b1d0b1248c50a3bc959c5f
      orderEightX orderEightY' ∧
    affineMul 8 (orderEightX, orderEightY') = (0, 1) := by
  unfold IsUOf OnCurve
  decide +kernel

/-- Each low-order u: 0 and P are 0, P - 1 is -1, the others belong to points of order 4 and 8. -/
theorem ladder_of_lowOrderU (kraw : Word) {uraw : Word}
    (hu : uraw.toNat % 2 ^ 255 ∈ lowOrderU) : ladder kraw uraw = 0 := by
  obtain ⟨h1, h1', h4⟩ := isUOf_orderFour
  obtain ⟨h8, hm8⟩ := isUOf_orderEight
  obtain ⟨h8', hm8'⟩ := isUOf_orderEight'
  simp only [lowOrderU, List.mem_cons, List.not_mem_nil, or_false] at hu
  obtain hu | hu | hu | hu | hu | hu | hu := hu
  · exact ladder_of_zero kraw (by rw [hu, Nat.cast_zero])
  · exact ladder_of_torsion h1 h4 kraw hu
  · exact ladder_of_torsion h8 hm8 kraw hu
  · exact ladder_of_torsion h8' hm8' kraw hu
  · exact ladder_of_neg_one kraw (by rw [hu, Nat.cast_sub P_pos, cast_P, Nat.cast_one, zero_sub])
  · exact ladder_of_zero kraw (by rw [hu, cast_P])
  · exact ladder_of_torsion h1' h4 kraw hu

/-- Settles O36: the ladder of each low-order u is 0. -/
theorem xladOfLowOrderUIsZero : Obligations.XladOfLowOrderUIsZero :=
  fun rd _ _ _ hu => exec_xlad_of_ladder_eq_zero rd (ladder_of_lowOrderU _ hu)

/-! ## Diffie-Hellman (46_x25519_ladder.md R169) -/

theorem isUOf_base : IsUOf 9 BX BY := ⟨base_onCurve, by decide +kernel⟩

section
variable [Fact P.Prime]

/-- u = 9 is the base point's. -/
theorem cast_ladder_nine (k : Word) :
    ((ladder k 9 : Nat) : K) = uOf (mulK (clamp k).toNat baseK) := by
  rw [← castPair_base]
  exact cast_ladder_of_curve isUOf_base.curveK k isUOf_base.cast_eq

/-- On the other side's result the ladder gives the u of the product of the scalars. -/
theorem cast_ladder_of_ladder_nine (k k' : Word) {v : Word} (hv : v.toNat = ladder k' 9) :
    ((ladder k v : Nat) : K) = uOf (mulK ((clamp k).toNat * (clamp k').toNat) baseK) := by
  have hmod : v.toNat % 2 ^ 255 = ladder k' 9 := by
    rw [hv, Nat.mod_eq_of_lt ((ladder_lt k' 9).trans P_lt)]
  rw [← mulK_mul baseK_on_curve]
  exact cast_ladder_of_curve (mulK_on_curve baseK_on_curve _) k (by rw [hmod, cast_ladder_nine])

end

/-- Both sides' ladders on each other's result are one number. -/
theorem ladder_shared {k k' v v' : Word} (hv : v.toNat = ladder k 9)
    (hv' : v'.toNat = ladder k' 9) :
    ladder k v' = ladder k' v := by
  have := fact_P_prime
  apply eq_of_cast_eq (ladder_lt _ _) (ladder_lt _ _)
  rw [cast_ladder_of_ladder_nine k k' hv', cast_ladder_of_ladder_nine k' k hv, Nat.mul_comm]

/-- Settles O37: each side's scalar is still in its register, and the shared number decides the
flag. -/
theorem xladAgreesOnASharedValue : Obligations.XladAgreesOnASharedValue := by
  intro rd ra rb s s' t t' hne hs hs' ht ht'
  obtain ⟨u, hx, hval, -⟩ := exec_xlad_writes rd ra rb s
  obtain ⟨u', hx', hval', -⟩ := exec_xlad_writes rd ra rb s'
  obtain rfl := Host.Outcome.next.inj (hx.symm.trans ht)
  obtain rfl := Host.Outcome.next.inj (hx'.symm.trans ht')
  rw [hs] at hval
  rw [hs'] at hval'
  obtain ⟨z, hz, hvalz, -, hstatus⟩ := exec_xlad_writes rd ra rb (s.writeW rb (u'.readW rd))
  obtain ⟨z', hz', hvalz', -, hstatus'⟩ := exec_xlad_writes rd ra rb (s'.writeW rb (u.readW rd))
  rw [readW_writeW_ne _ _ _ _ hne, readW_writeW_same] at hvalz hvalz'
  have heq : z.readW rd = z'.readW rd :=
    BitVec.eq_of_toNat_eq (by rw [hvalz, hvalz', ladder_shared hval hval'])
  exact ⟨z, z', hz, hz', heq, by rw [hstatus, hstatus', heq]⟩

end Sys2Proof.Machine
end
